-- ==== Sys2Proof/Word.lean ====
section
/-! DEFINITION. The word type of the CORE (`00_scope.md` R8, R10): registers, the pc, addresses, data words and
instruction words are all 32-bit values, and a register is named by a 5-bit number. Arithmetic on them is
`BitVec`'s own, which wraps modulo 2^32 as `00_scope.md` R11 asks. -/

namespace Sys2Proof

/-- `Bits32` of `00_scope.md` R10; `XLEN` is fixed at 32 (R8). -/
abbrev Word := BitVec 32

/-- The number of a general register, 0 to 31 (`10_state.md` R20). -/
abbrev RegNum := BitVec 5

end Sys2Proof
end

