-- ==== Sys2Proof/Config.lean ====
section
/-! DEFINITION. The parameters of the CORE (`00_scope.md` R8): the two base addresses, the two open policies, and
the fixed numbers. The instruction image and the data image, also host inputs (`10_state.md` R36), are data of the
loader (`Machine/Loader.lean`) and the image then stands in `State`. -/

namespace Sys2Proof

/-- `MISALIGNED_FETCH` (`20_memory.md` R53): what fetch does at an address that is not a multiple of 4. -/
inductive MisalignedFetch where
  | fault      -- the Step has no next state
  | truncate   -- the word index is rounded down
deriving DecidableEq, Repr

/-- `ILLEGAL_POLICY` (`45_system.md` R245, R246): what a word outside the opcode table does. -/
inductive IllegalPolicy where
  | inert      -- the pc advances, nothing else
  | refuse     -- the Step has no next state
deriving DecidableEq, Repr

/-- The host's configuration inputs, fixed before the first Step (`10_state.md` R36). -/
structure Config where
  imemBase        : Word             -- IMEM_BASE
  dmemBase        : Word             -- DMEM_BASE
  misalignedFetch : MisalignedFetch  -- MISALIGNED_FETCH
  illegalPolicy   : IllegalPolicy    -- ILLEGAL_POLICY
deriving DecidableEq, Repr

/-- The default values of `00_scope.md` R8. -/
def Config.default : Config where
  imemBase        := 0x00400000#32
  dmemBase        := 0x10010000#32
  misalignedFetch := .fault
  illegalPolicy   := .inert

/-- `HALT_REG` (`00_scope.md` R8): the register syscall tests. -/
def haltReg : RegNum := 2#5

/-- `HALT_CODE` (`00_scope.md` R8): the value that makes syscall halt. -/
def haltCode : Word := 10#32

/-- `LINK_REG` (`00_scope.md` R8): the register jal writes. -/
def linkReg : RegNum := 31#5

end Sys2Proof
end

