-- ==== Sys2Proof/Machine/State.lean ====
section
/-! DEFINITION. The machine's state (`10_state.md`), as plain data, and its value after reset (R38). -/

namespace Sys2Proof.Machine

/-- The data memory (`10_state.md` R25): "sparse mapping address→32-bit value; absent key reads as zero". A list of
(address, word) pairs, one 32-bit cell for each 32-bit address and no byte view of it (`20_memory.md` R55, R61),
in the canonical form `Memory.wf` of `Machine/Ops.lean`. (DESIGN CHOICE of form, log 1.) -/
abbrev Memory := List (Nat × Word)

/-- The latch Fetch→Decode (`10_state.md` R30). -/
structure FDLatch where
  instr : Word
  npc   : Word
deriving DecidableEq, Repr

/-- The latch Decode→Execute (`10_state.md` R31). -/
structure DELatch where
  opcode  : BitVec 6
  rs      : RegNum
  rt      : RegNum
  rd      : RegNum
  shamt   : BitVec 5
  funct   : BitVec 6
  immZext : Word
  immSext : Word
  jaddr   : BitVec 26
  rsVal   : Word
  rtVal   : Word
  npc     : Word
deriving DecidableEq, Repr

/-- The latch Execute→Memory (`10_state.md` R32). -/
structure EMLatch where
  aluResult : Word
  storeData : Word
  memRead   : Bool
  memWrite  : Bool
  regWrite  : Bool
  dest      : RegNum
  branch    : Bool
  jump      : Bool
  target    : Word
deriving DecidableEq, Repr

/-- The latch Memory→WriteBack (`10_state.md` R33). -/
structure MWLatch where
  loadData  : Word
  aluResult : Word
  regWrite  : Bool
  dest      : RegNum
  memRead   : Bool
deriving DecidableEq, Repr

/-- Everything the spec gives the machine (`10_state.md` R20 to R36). A latch that is `none` is "empty" (R29). -/
structure State where
  cfg    : Config           -- host inputs, never changed by a Step (R36; DESIGN CHOICE of place, log 2)
  prog   : List Word        -- the instruction image PROG (R24)
  regs   : Vector Word 32   -- x[0] .. x[31] (R20)
  pc     : Word             -- R26
  halted : Bool             -- R27
  mem    : Memory           -- DMem (R25)
  fd     : Option FDLatch   -- R30
  de     : Option DELatch   -- R31
  em     : Option EMLatch   -- R32
  mw     : Option MWLatch   -- R33
  cycles : Nat              -- R35
deriving DecidableEq, Repr

/-- Why a Step has no next state (`60_exceptions.md` R273). Neither is an exception of the hardware. -/
inductive Fault where
  /-- Raised by Fetch (`Machine/Fetch.lean`) at a pc that is no multiple of 4, when `MISALIGNED_FETCH = fault`
  (`20_memory.md` R53, `40_datapath.md` R113). Safe: the source gives no behaviour, and the fault claims none. -/
  | misalignedFetch (pc : Word)
  /-- Raised by Execute (`Machine/System.lean`) for a word outside the opcode table, when `ILLEGAL_POLICY = refuse`
  (`45_system.md` R246). Safe: the option exists so that a proof need not rest on the inert meaning. -/
  | unlisted (w : Word)
deriving DecidableEq, Repr

/-- Where the model gives no meaning. -/
inductive Refusal where
  /-- Raised by an arm of `exec` for an instruction that has no meaning yet; no arm does. Safe. -/
  | notModelled (mnemonic : String)
  /-- Raised by the loader (`Machine/Loader.lean`) for a configuration that breaks `10_state.md` R37: "refused by
  the model before reset". Safe: such a machine gets no meaning. -/
  | badConfiguration
deriving DecidableEq, Repr

/-- The state after reset under configuration `c`, before anything is loaded (`10_state.md` R38,
`70_reset_and_hazards.md` R290): registers zero, pc at `IMEM_BASE`, not halted, latches empty, no cycle counted. -/
def State.resetWith (c : Config) : State where
  cfg    := c
  prog   := []
  regs   := Vector.replicate 32 0#32
  pc     := c.imemBase
  halted := false
  mem    := []
  fd     := none
  de     := none
  em     := none
  mw     := none
  cycles := 0

/-- The machine right after reset with the default configuration of `00_scope.md` R8. The images are host inputs
with no default and nothing is loaded yet (log 3): `Machine.boot` loads them. -/
def State.reset : State := State.resetWith Config.default

end Sys2Proof.Machine
end

