-- ==== Sys2Proof/Machine/Ops.lean ====
section
/-! DEFINITION. The named operations over registers and memory, and the completion of a Step that every meaning
shares: the Memory and WriteBack stages (`40_datapath.md` R126 to R133).

The CORE takes no exception and returns from none (`60_exceptions.md` R260, R264), so there is no entry operation;
its one event, the halt, is in `Machine/Flags.lean`. -/

namespace Sys2Proof.Machine

/-- The outcome of one instruction. -/
abbrev Result := Host.Outcome State Fault Refusal

/-! ### Registers -/

/-- A register read (`40_datapath.md` R117): address 0 reads 0 (`10_state.md` R21). -/
def State.reg (s : State) (r : RegNum) : Word :=
  if r = 0#5 then 0#32 else s.regs[r.toNat]'r.isLt

/-- A register write (`40_datapath.md` R117): the write enable is gated off for register 0 (`10_state.md` R22). -/
def State.setReg (s : State) (r : RegNum) (v : Word) : State :=
  if r = 0#5 then s else { s with regs := s.regs.set r.toNat v r.isLt }

/-! ### Data memory -/

/-- What a cell never stored or loaded reads as (`10_state.md` R25, `20_memory.md` R56). -/
def Memory.unlisted : Word := 0#32

/-- The word listed at key `k`, or what an unlisted cell reads as. -/
def Memory.lookup (m : Memory) (k : Nat) : Word :=
  match m with
  | [] => Memory.unlisted
  | (k', v) :: rest => if k' = k then v else Memory.lookup rest k

/-- The list without any entry at key `k`. -/
def Memory.erase (m : Memory) (k : Nat) : Memory :=
  match m with
  | [] => []
  | (k', v) :: rest => if k' = k then Memory.erase rest k else (k', v) :: Memory.erase rest k

/-- The list with `v` at key `k`, at its place in the rising order. -/
def Memory.insert (m : Memory) (k : Nat) (v : Word) : Memory :=
  match m with
  | [] => [(k, v)]
  | (k', v') :: rest =>
    if k < k' then (k, v) :: (k', v') :: rest
    else if k = k' then (k, v) :: rest
    else (k', v') :: Memory.insert rest k v

/-- `MemRead(a, 4)` (`20_memory.md` R56): the cell named by the whole address. -/
def Memory.read (m : Memory) (a : Word) : Word := Memory.lookup m a.toNat

/-- `MemWrite(a, 4, v)` (`20_memory.md` R57). Storing what an unlisted cell reads as removes the entry, so that
equal memories are equal lists. -/
def Memory.write (m : Memory) (a : Word) (v : Word) : Memory :=
  if v = Memory.unlisted then Memory.erase m a.toNat else Memory.insert m a.toNat v

/-- Every entry lies at or above `lo`, in rising order, below 2^32, and holds a word other than `unlisted`. -/
def Memory.wfFrom (lo : Nat) (m : Memory) : Bool :=
  match m with
  | [] => true
  | (k, v) :: rest => decide (lo ≤ k) && decide (k < 2 ^ 32) && (v != Memory.unlisted) && Memory.wfFrom (k + 1) rest

/-- The canonical form: addresses strictly rising, each a 32-bit address, no entry equal to what an unlisted
address reads as. -/
def Memory.wf (m : Memory) : Bool := Memory.wfFrom 0 m

/-- `DMem(a)` of a state (`10_state.md` R25). -/
def State.dmem (s : State) (a : Word) : Word := Memory.read s.mem a

/-! ### The end of a Step -/

/-- The sequential next pc, `pc + 4` modulo 2^32 (`40_datapath.md` R111, `00_scope.md` R14). It is the value that
`FD.npc` and `DE.npc` hold in every Step (R130, D18; log 4). -/
def State.npc (s : State) : Word := s.pc + 4#32

/-- The values Execute writes to every field of `EM` that a row of the control table does not set
(`40_datapath.md` R120; the spec's decision D7, log 6). -/
def EMLatch.idle : EMLatch where
  aluResult := 0#32
  storeData := 0#32
  memRead   := false
  memWrite  := false
  regWrite  := false
  dest      := 0#5
  branch    := false
  jump      := false
  target    := 0#32

/-- `EM` of an instruction whose whole effect is `x[dest] <- v` (`40_datapath.md` R123). -/
def EMLatch.result (dest : RegNum) (v : Word) : EMLatch :=
  { EMLatch.idle with aluResult := v, regWrite := true, dest := dest }

/-- The load of the Memory stage (`40_datapath.md` R126): the cell at `alu_result`, or 0 when nothing is loaded. -/
def loadData (em : EMLatch) (m : Memory) : Word :=
  if em.memRead then Memory.read m em.aluResult else 0#32

/-- The store of the Memory stage (`40_datapath.md` R127). -/
def storeTo (em : EMLatch) (m : Memory) : Memory :=
  if em.memWrite then Memory.write m em.aluResult em.storeData else m

/-- The program-counter multiplexer (`40_datapath.md` R129, R130): `seq` is the sequential next pc. -/
def pcNext (em : EMLatch) (seq : Word) : Word :=
  if em.branch || em.jump then em.target else seq

/-- The latch the Memory stage writes (`40_datapath.md` R132). -/
def mwOf (em : EMLatch) (ld : Word) : MWLatch where
  loadData  := ld
  aluResult := em.aluResult
  regWrite  := em.regWrite
  dest      := em.dest
  memRead   := em.memRead

/-- The word WriteBack commits (`40_datapath.md` R133). -/
def MWLatch.value (mw : MWLatch) : Word := if mw.memRead then mw.loadData else mw.aluResult

/-- WriteBack (`40_datapath.md` R133). -/
def State.writeBack (s : State) (mw : MWLatch) : State :=
  if mw.regWrite then s.setReg mw.dest mw.value else s

/-- The Memory stage, with `em` in the latch and `seq` as the sequential next pc (`40_datapath.md` R126 to R132). -/
def State.memoryStage (s : State) (em : EMLatch) (seq : Word) : State :=
  { s with
    em  := some em
    mem := storeTo em s.mem
    pc  := pcNext em seq
    mw  := some (mwOf em (loadData em s.mem)) }

/-- What every instruction does once Execute has formed `em`: the Memory stage and then WriteBack. -/
def State.retire (s : State) (em : EMLatch) : State :=
  (s.memoryStage em s.npc).writeBack (mwOf em (loadData em s.mem))

end Sys2Proof.Machine
end

