-- ==== Sys2Proof/Machine/Flags.lean ====
section
/-! DEFINITION. The one flag of the CORE, `halted`, and the conditions instructions test (`10_state.md` R27, R28;
`40_datapath.md` R125; `42_control_transfer.md` R184, R185). No other flag exists. -/

namespace Sys2Proof.Machine

/-- The halt test of syscall (`40_datapath.md` R125, `45_system.md` R241): all 32 bits of register 2 equal 10. -/
def haltTest (s : State) : Bool := s.reg haltReg == haltCode

/-- `halted <- true` when the test holds; the flag is set only, never cleared (`10_state.md` R27). -/
def State.haltIf (s : State) (test : Bool) : State := { s with halted := s.halted || test }

/-- The condition of beq (`42_control_transfer.md` R184): all 32 bits are equal. -/
def takenEq (a b : Word) : Bool := a == b

/-- The condition of bne (`42_control_transfer.md` R185). -/
def takenNe (a b : Word) : Bool := a != b

end Sys2Proof.Machine
end

