-- ==== Sys2Proof/Machine/Operands.lean ====
section
/-! DEFINITION. Operand forms: the two extensions of an immediate, the shift amount, the branch and jump targets,
the effective address (`00_scope.md` R12, `30_encoding.md` R83 to R87, `44_load_store.md` R220). -/

namespace Sys2Proof.Machine

/-- `zext_32` (`00_scope.md` R12, `30_encoding.md` R83): andi, ori, xori, lui (R89). -/
def zext32 (imm : BitVec 16) : Word := imm.setWidth 32

/-- `sext_32` (`00_scope.md` R12, `30_encoding.md` R84; bit 15 is the sign bit, `90_conflicts.md` C1): addi, addiu,
slti, sltiu, lw, sw, beq, bne (R89; sltiu by decision D9, log 13). -/
def sext32 (imm : BitVec 16) : Word := imm.signExtend 32

/-- The shift amount as the ALU's operand B (`40_datapath.md` R122). -/
def shiftAmount (shamt : BitVec 5) : Word := shamt.setWidth 32

/-- The branch target `npc + (sext_32(imm) << 2)`, modulo 2^32 (`30_encoding.md` R86, D2, log 9). -/
def branchTarget (npc : Word) (immSext : Word) : Word := npc + (immSext <<< 2)

/-- The jump target: bits 31-28 of `npc`, the 26-bit field, two zero bits (`30_encoding.md` R87). -/
def jumpTarget (npc : Word) (jaddr : BitVec 26) : Word :=
  (npc &&& 0xF0000000#32) ||| (jaddr.setWidth 32 <<< 2)

/-- The effective address `x[rs] + sext_32(imm)`, modulo 2^32: the one addressing mode (`44_load_store.md` R220). -/
def effectiveAddress (s : State) (rs : RegNum) (imm : BitVec 16) : Word := s.reg rs + sext32 imm

end Sys2Proof.Machine
end

