-- ==== Sys2Proof/Machine/ControlTransfer.lean ====
section
/-! DEFINITION. The control-transfer instructions (`42_control_transfer.md` R180 to R188). There is no delay slot
(R186): the target is the pc after the Step. -/

namespace Sys2Proof.Machine

/-- jr (R181): `pc <- x[rs]`, whatever its alignment (R187). -/
def execJr (rs _rt _rd : RegNum) (_shamt : BitVec 5) (s : State) : Result :=
  .next (s.retire { EMLatch.idle with jump := true, target := s.reg rs })

/-- j (R182): `pc <- (npc & 0xF0000000) | (target << 2)`. -/
def execJ (target : BitVec 26) (s : State) : Result :=
  .next (s.retire { EMLatch.idle with jump := true, target := jumpTarget s.npc target })

/-- jal (R183): as j, and `x[31] <- pc + 4`. -/
def execJal (target : BitVec 26) (s : State) : Result :=
  .next (s.retire
    { EMLatch.result linkReg s.npc with jump := true, target := jumpTarget s.npc target })

/-- A conditional transfer: the target is computed whether or not it is taken (`40_datapath.md` R123). -/
def branchIf (taken : Bool) (imm : BitVec 16) (s : State) : Result :=
  .next (s.retire { EMLatch.idle with branch := taken, target := branchTarget s.npc (sext32 imm) })

/-- beq (R184): taken when `x[rs] == x[rt]`. -/
def execBeq (rs rt : RegNum) (imm : BitVec 16) (s : State) : Result :=
  branchIf (takenEq (s.reg rs) (s.reg rt)) imm s

/-- bne (R185): taken when `x[rs] != x[rt]`. -/
def execBne (rs rt : RegNum) (imm : BitVec 16) (s : State) : Result :=
  branchIf (takenNe (s.reg rs) (s.reg rt)) imm s

end Sys2Proof.Machine
end

