-- ==== Sys2Proof/Syntax.lean ====
section
/-! DEFINITION. The instructions: one constructor for each of the 28 rows of `30_encoding.md` R95.

A constructor holds EVERY field of its format (`30_encoding.md` R80, R81), the ones the instruction ignores (R91)
too, in the order they stand in the word: R88 lets an ignored field hold any value, and with it kept, a word and its
instruction carry the same bits (DESIGN CHOICE, log 8). Field widths are the types, so no check on a field's range
is needed: every term is an instruction of the table. -/

namespace Sys2Proof

inductive Instr where
  -- register ALU, `41_register_alu.md`: rs, rt, rd used, shamt ignored
  | add   (rs rt rd : RegNum) (shamt : BitVec 5)
  | addu  (rs rt rd : RegNum) (shamt : BitVec 5)
  | sub   (rs rt rd : RegNum) (shamt : BitVec 5)
  | subu  (rs rt rd : RegNum) (shamt : BitVec 5)
  | and   (rs rt rd : RegNum) (shamt : BitVec 5)
  | or    (rs rt rd : RegNum) (shamt : BitVec 5)
  | xor   (rs rt rd : RegNum) (shamt : BitVec 5)
  | nor   (rs rt rd : RegNum) (shamt : BitVec 5)
  | slt   (rs rt rd : RegNum) (shamt : BitVec 5)
  | sltu  (rs rt rd : RegNum) (shamt : BitVec 5)
  -- shifts: rt, rd, shamt used, rs ignored
  | sll   (rs rt rd : RegNum) (shamt : BitVec 5)
  | srl   (rs rt rd : RegNum) (shamt : BitVec 5)
  -- control transfer, `42_control_transfer.md`: jr uses rs; rt, rd, shamt ignored
  | jr    (rs rt rd : RegNum) (shamt : BitVec 5)
  -- system, `45_system.md`: the code field (bits 25-6) is ignored
  | syscall (code : BitVec 20)
  | j     (target : BitVec 26)
  | jal   (target : BitVec 26)
  | beq   (rs rt : RegNum) (imm : BitVec 16)
  | bne   (rs rt : RegNum) (imm : BitVec 16)
  -- immediate ALU, `43_immediate_alu.md`
  | addi  (rs rt : RegNum) (imm : BitVec 16)
  | addiu (rs rt : RegNum) (imm : BitVec 16)
  | slti  (rs rt : RegNum) (imm : BitVec 16)
  | sltiu (rs rt : RegNum) (imm : BitVec 16)
  | andi  (rs rt : RegNum) (imm : BitVec 16)
  | ori   (rs rt : RegNum) (imm : BitVec 16)
  | xori  (rs rt : RegNum) (imm : BitVec 16)
  -- lui: rs ignored
  | lui   (rs rt : RegNum) (imm : BitVec 16)
  -- load and store, `44_load_store.md`
  | lw    (rs rt : RegNum) (imm : BitVec 16)
  | sw    (rs rt : RegNum) (imm : BitVec 16)
deriving DecidableEq, Repr

end Sys2Proof
end

