-- ==== Sys2Proof/Decode.lean ====
section
/-! DEFINITION. The decoder and the encoder (`30_encoding.md`). `decode` is total on every word; a word that matches
no row of the table (R97) is rejected by name. `encode` is written from the same field positions (R81) and the same
opcode map (R94 to R96). -/

namespace Sys2Proof

/-! ### Fields (`30_encoding.md` R81, R85) -/

def opcodeOf (w : Word) : BitVec 6  := w.extractLsb' 26 6
def rsOf     (w : Word) : RegNum    := w.extractLsb' 21 5
def rtOf     (w : Word) : RegNum    := w.extractLsb' 16 5
def rdOf     (w : Word) : RegNum    := w.extractLsb' 11 5
def shamtOf  (w : Word) : BitVec 5  := w.extractLsb' 6 5
def functOf  (w : Word) : BitVec 6  := w.extractLsb' 0 6
def immOf    (w : Word) : BitVec 16 := w.extractLsb' 0 16
def targetOf (w : Word) : BitVec 26 := w.extractLsb' 0 26
/-- Bits 25 to 6, the code field that syscall ignores (`45_system.md` R241). -/
def codeOf   (w : Word) : BitVec 20 := w.extractLsb' 6 20

/-! ### The opcode table (`30_encoding.md` R94 to R96) -/

/-- The rows of `30_encoding.md` R95, by mnemonic: what the decoder selects before it takes the fields out. -/
inductive Op where
  | add | addu | sub | subu | and | or | xor | nor | slt | sltu | sll | srl | jr | syscall
  | j | jal | beq | bne | addi | addiu | slti | sltiu | andi | ori | xori | lui | lw | sw
deriving DecidableEq, Repr

/-- The secondary map, for `opcode = 0` (R96). -/
def lookupFunct (funct : BitVec 6) : Option Op :=
  match funct.toNat with
  | 0 => some .sll
  | 2 => some .srl
  | 8 => some .jr
  | 12 => some .syscall
  | 32 => some .add
  | 33 => some .addu
  | 34 => some .sub
  | 35 => some .subu
  | 36 => some .and
  | 37 => some .or
  | 38 => some .xor
  | 39 => some .nor
  | 42 => some .slt
  | 43 => some .sltu
  | _ => none

/-- The primary map (R94), with the sub-dispatch on `funct` when `opcode = 0` (R88). `none`: inert (R97). -/
def lookup (opcode funct : BitVec 6) : Option Op :=
  match opcode.toNat with
  | 0 => lookupFunct funct
  | 2 => some .j
  | 3 => some .jal
  | 4 => some .beq
  | 5 => some .bne
  | 8 => some .addi
  | 9 => some .addiu
  | 10 => some .slti
  | 11 => some .sltiu
  | 12 => some .andi
  | 13 => some .ori
  | 14 => some .xori
  | 15 => some .lui
  | 35 => some .lw
  | 43 => some .sw
  | _ => none

/-- The row of `30_encoding.md` R95 as it stands there: a word is this instruction iff `w & mask = match`. -/
structure OpcodeRow where
  op      : Op
  mask    : Word
  pattern : Word
deriving DecidableEq, Repr

/-- The `mask` of a row with opcode 0: opcode and funct. -/
def maskFunct : Word := 0xFC00003F#32

/-- The `mask` of every other row: opcode only. -/
def maskOpcode : Word := 0xFC000000#32

/-- `30_encoding.md` R95, rows 1 to 14: the R-type rows. -/
def functRows : List OpcodeRow :=
  [⟨.add, maskFunct, 0x00000020#32⟩, ⟨.addu, maskFunct, 0x00000021#32⟩, ⟨.sub, maskFunct, 0x00000022#32⟩,
   ⟨.subu, maskFunct, 0x00000023#32⟩, ⟨.and, maskFunct, 0x00000024#32⟩, ⟨.or, maskFunct, 0x00000025#32⟩,
   ⟨.xor, maskFunct, 0x00000026#32⟩, ⟨.nor, maskFunct, 0x00000027#32⟩, ⟨.slt, maskFunct, 0x0000002A#32⟩,
   ⟨.sltu, maskFunct, 0x0000002B#32⟩, ⟨.sll, maskFunct, 0x00000000#32⟩, ⟨.srl, maskFunct, 0x00000002#32⟩,
   ⟨.jr, maskFunct, 0x00000008#32⟩, ⟨.syscall, maskFunct, 0x0000000C#32⟩]

/-- `30_encoding.md` R95, rows 15 to 28: the J-type and I-type rows. -/
def opcodeRows : List OpcodeRow :=
  [⟨.j, maskOpcode, 0x08000000#32⟩, ⟨.jal, maskOpcode, 0x0C000000#32⟩, ⟨.beq, maskOpcode, 0x10000000#32⟩,
   ⟨.bne, maskOpcode, 0x14000000#32⟩, ⟨.addi, maskOpcode, 0x20000000#32⟩, ⟨.addiu, maskOpcode, 0x24000000#32⟩,
   ⟨.slti, maskOpcode, 0x28000000#32⟩, ⟨.sltiu, maskOpcode, 0x2C000000#32⟩, ⟨.andi, maskOpcode, 0x30000000#32⟩,
   ⟨.ori, maskOpcode, 0x34000000#32⟩, ⟨.xori, maskOpcode, 0x38000000#32⟩, ⟨.lui, maskOpcode, 0x3C000000#32⟩,
   ⟨.lw, maskOpcode, 0x8C000000#32⟩, ⟨.sw, maskOpcode, 0xAC000000#32⟩]

/-- `30_encoding.md` R95, whole. The decoder uses `lookup`; that the two agree is a statement of its own. -/
def opcodeTable : List OpcodeRow := functRows ++ opcodeRows

/-! ### The decoder -/

/-- The instruction of row `op` with the fields of the word `w` (R81, R91). -/
def instrOf (op : Op) (w : Word) : Instr :=
  match op with
  | .add => .add (rsOf w) (rtOf w) (rdOf w) (shamtOf w)
  | .addu => .addu (rsOf w) (rtOf w) (rdOf w) (shamtOf w)
  | .sub => .sub (rsOf w) (rtOf w) (rdOf w) (shamtOf w)
  | .subu => .subu (rsOf w) (rtOf w) (rdOf w) (shamtOf w)
  | .and => .and (rsOf w) (rtOf w) (rdOf w) (shamtOf w)
  | .or => .or (rsOf w) (rtOf w) (rdOf w) (shamtOf w)
  | .xor => .xor (rsOf w) (rtOf w) (rdOf w) (shamtOf w)
  | .nor => .nor (rsOf w) (rtOf w) (rdOf w) (shamtOf w)
  | .slt => .slt (rsOf w) (rtOf w) (rdOf w) (shamtOf w)
  | .sltu => .sltu (rsOf w) (rtOf w) (rdOf w) (shamtOf w)
  | .sll => .sll (rsOf w) (rtOf w) (rdOf w) (shamtOf w)
  | .srl => .srl (rsOf w) (rtOf w) (rdOf w) (shamtOf w)
  | .jr => .jr (rsOf w) (rtOf w) (rdOf w) (shamtOf w)
  | .syscall => .syscall (codeOf w)
  | .j => .j (targetOf w)
  | .jal => .jal (targetOf w)
  | .beq => .beq (rsOf w) (rtOf w) (immOf w)
  | .bne => .bne (rsOf w) (rtOf w) (immOf w)
  | .addi => .addi (rsOf w) (rtOf w) (immOf w)
  | .addiu => .addiu (rsOf w) (rtOf w) (immOf w)
  | .slti => .slti (rsOf w) (rtOf w) (immOf w)
  | .sltiu => .sltiu (rsOf w) (rtOf w) (immOf w)
  | .andi => .andi (rsOf w) (rtOf w) (immOf w)
  | .ori => .ori (rsOf w) (rtOf w) (immOf w)
  | .xori => .xori (rsOf w) (rtOf w) (immOf w)
  | .lui => .lui (rsOf w) (rtOf w) (immOf w)
  | .lw => .lw (rsOf w) (rtOf w) (immOf w)
  | .sw => .sw (rsOf w) (rtOf w) (immOf w)

/-- Why the decoder rejects a word. -/
inductive DecodeError where
  | unlisted (w : Word)   -- `w` matches no row of `30_encoding.md` R95 (R97)
deriving DecidableEq, Repr

/-- The decoder (`30_encoding.md` R88): it dispatches on opcode and funct alone. -/
def decode (w : Word) : Except DecodeError Instr :=
  match lookup (opcodeOf w) (functOf w) with
  | some op => .ok (instrOf op w)
  | none => .error (.unlisted w)

/-- The host's view of the decoder: a word of the table, bit 0 least significant. Every instruction is one 32-bit
word (`30_encoding.md` R80) and the image is a list of words, so no byte order enters (`20_memory.md` R61). -/
def decodeTableWord (nbits w : Nat) : Option Instr :=
  match decode (BitVec.ofNat 32 (w % 2 ^ nbits)) with
  | .ok i => some i
  | .error _ => none

/-! ### The encoder -/

/-- An R-type word (`30_encoding.md` R80): opcode 0, then the fields in order. -/
def encodeR (rs rt rd : RegNum) (shamt : BitVec 5) (funct : BitVec 6) : Word :=
  0#6 ++ rs ++ rt ++ rd ++ shamt ++ funct

/-- An I-type word (`30_encoding.md` R80). -/
def encodeI (opcode : BitVec 6) (rs rt : RegNum) (imm : BitVec 16) : Word :=
  opcode ++ rs ++ rt ++ imm

/-- A J-type word (`30_encoding.md` R80). -/
def encodeJ (opcode : BitVec 6) (target : BitVec 26) : Word :=
  opcode ++ target

/-- The word of an instruction (`30_encoding.md` R81, R95, R96). -/
def encode (i : Instr) : Word :=
  match i with
  | .add rs rt rd shamt => encodeR rs rt rd shamt 32#6
  | .addu rs rt rd shamt => encodeR rs rt rd shamt 33#6
  | .sub rs rt rd shamt => encodeR rs rt rd shamt 34#6
  | .subu rs rt rd shamt => encodeR rs rt rd shamt 35#6
  | .and rs rt rd shamt => encodeR rs rt rd shamt 36#6
  | .or rs rt rd shamt => encodeR rs rt rd shamt 37#6
  | .xor rs rt rd shamt => encodeR rs rt rd shamt 38#6
  | .nor rs rt rd shamt => encodeR rs rt rd shamt 39#6
  | .slt rs rt rd shamt => encodeR rs rt rd shamt 42#6
  | .sltu rs rt rd shamt => encodeR rs rt rd shamt 43#6
  | .sll rs rt rd shamt => encodeR rs rt rd shamt 0#6
  | .srl rs rt rd shamt => encodeR rs rt rd shamt 2#6
  | .jr rs rt rd shamt => encodeR rs rt rd shamt 8#6
  | .syscall code => 0#6 ++ code ++ 12#6
  | .j target => encodeJ 2#6 target
  | .jal target => encodeJ 3#6 target
  | .beq rs rt imm => encodeI 4#6 rs rt imm
  | .bne rs rt imm => encodeI 5#6 rs rt imm
  | .addi rs rt imm => encodeI 8#6 rs rt imm
  | .addiu rs rt imm => encodeI 9#6 rs rt imm
  | .slti rs rt imm => encodeI 10#6 rs rt imm
  | .sltiu rs rt imm => encodeI 11#6 rs rt imm
  | .andi rs rt imm => encodeI 12#6 rs rt imm
  | .ori rs rt imm => encodeI 13#6 rs rt imm
  | .xori rs rt imm => encodeI 14#6 rs rt imm
  | .lui rs rt imm => encodeI 15#6 rs rt imm
  | .lw rs rt imm => encodeI 35#6 rs rt imm
  | .sw rs rt imm => encodeI 43#6 rs rt imm

/-- The row of the table an instruction belongs to. -/
def Instr.op (i : Instr) : Op :=
  match i with
  | .add _ _ _ _ => .add | .addu _ _ _ _ => .addu | .sub _ _ _ _ => .sub | .subu _ _ _ _ => .subu
  | .and _ _ _ _ => .and | .or _ _ _ _ => .or | .xor _ _ _ _ => .xor | .nor _ _ _ _ => .nor
  | .slt _ _ _ _ => .slt | .sltu _ _ _ _ => .sltu | .sll _ _ _ _ => .sll | .srl _ _ _ _ => .srl
  | .jr _ _ _ _ => .jr | .syscall _ => .syscall | .j _ => .j | .jal _ => .jal
  | .beq _ _ _ => .beq | .bne _ _ _ => .bne | .addi _ _ _ => .addi | .addiu _ _ _ => .addiu
  | .slti _ _ _ => .slti | .sltiu _ _ _ => .sltiu | .andi _ _ _ => .andi | .ori _ _ _ => .ori
  | .xori _ _ _ => .xori | .lui _ _ _ => .lui | .lw _ _ _ => .lw | .sw _ _ _ => .sw

end Sys2Proof
end

