-- ==== Sys2Proof/Machine/Alu.lean ====
section
/-! DEFINITION. The ALU (`40_datapath.md` R121). It has no carry, overflow or zero output and raises nothing. -/

namespace Sys2Proof.Machine

/-- The operations of `40_datapath.md` R121. -/
inductive AluOp where
  | add | sub | and | or | xor | nor | slt | sltu | sll | srl | lui
deriving DecidableEq, Repr

/-- The ALU's output `Y` for the inputs `A`, `B` (`40_datapath.md` R121); a shift uses `B[4:0]`. -/
def alu (op : AluOp) (a b : Word) : Word :=
  match op with
  | .add => a + b
  | .sub => a - b
  | .and => a &&& b
  | .or => a ||| b
  | .xor => a ^^^ b
  | .nor => ~~~(a ||| b)
  | .slt => if a.slt b then 1#32 else 0#32
  | .sltu => if a.ult b then 1#32 else 0#32
  | .sll => a <<< (b.toNat % 32)
  | .srl => a >>> (b.toNat % 32)
  | .lui => b <<< 16

end Sys2Proof.Machine
end

