-- ==== Sys2Proof/Machine/RegisterAlu.lean ====
section
/-! DEFINITION. The register ALU instructions (`41_register_alu.md` R150 to R162): a row of the control table
(`40_datapath.md` R123) each, completed by `State.retire`. No flag is written and no overflow traps (R150). -/

namespace Sys2Proof.Machine

/-- `x[dest] <- A op B; pc <- pc + 4`: the row all ALU instructions share (`40_datapath.md` R121 to R123). -/
def aluToReg (op : AluOp) (a b : Word) (dest : RegNum) (s : State) : Result :=
  .next (s.retire (EMLatch.result dest (alu op a b)))

/-- add (R151): `x[rd] <- x[rs] + x[rt]`. -/
def execAdd (rs rt rd : RegNum) (_shamt : BitVec 5) (s : State) : Result :=
  aluToReg .add (s.reg rs) (s.reg rt) rd s

/-- addu (R152): `x[rd] <- x[rs] + x[rt]`. -/
def execAddu (rs rt rd : RegNum) (_shamt : BitVec 5) (s : State) : Result :=
  aluToReg .add (s.reg rs) (s.reg rt) rd s

/-- sub (R153): `x[rd] <- x[rs] - x[rt]`. -/
def execSub (rs rt rd : RegNum) (_shamt : BitVec 5) (s : State) : Result :=
  aluToReg .sub (s.reg rs) (s.reg rt) rd s

/-- subu (R154): `x[rd] <- x[rs] - x[rt]`. -/
def execSubu (rs rt rd : RegNum) (_shamt : BitVec 5) (s : State) : Result :=
  aluToReg .sub (s.reg rs) (s.reg rt) rd s

/-- and (R155): `x[rd] <- x[rs] & x[rt]`. -/
def execAnd (rs rt rd : RegNum) (_shamt : BitVec 5) (s : State) : Result :=
  aluToReg .and (s.reg rs) (s.reg rt) rd s

/-- or (R156): `x[rd] <- x[rs] | x[rt]`. -/
def execOr (rs rt rd : RegNum) (_shamt : BitVec 5) (s : State) : Result :=
  aluToReg .or (s.reg rs) (s.reg rt) rd s

/-- xor (R157): `x[rd] <- x[rs] ^ x[rt]`. -/
def execXor (rs rt rd : RegNum) (_shamt : BitVec 5) (s : State) : Result :=
  aluToReg .xor (s.reg rs) (s.reg rt) rd s

/-- nor (R158): `x[rd] <- ~(x[rs] | x[rt])`. -/
def execNor (rs rt rd : RegNum) (_shamt : BitVec 5) (s : State) : Result :=
  aluToReg .nor (s.reg rs) (s.reg rt) rd s

/-- slt (R159): `x[rd] <- signed(x[rs]) < signed(x[rt]) ? 1 : 0`. -/
def execSlt (rs rt rd : RegNum) (_shamt : BitVec 5) (s : State) : Result :=
  aluToReg .slt (s.reg rs) (s.reg rt) rd s

/-- sltu (R160): `x[rd] <- unsigned(x[rs]) < unsigned(x[rt]) ? 1 : 0`. -/
def execSltu (rs rt rd : RegNum) (_shamt : BitVec 5) (s : State) : Result :=
  aluToReg .sltu (s.reg rs) (s.reg rt) rd s

/-- sll (R161): `x[rd] <- x[rt] << shamt`, unless the word is zero: that word makes no register write
(`30_encoding.md` R92; applied to every zero word, D17). -/
def execSll (rs rt rd : RegNum) (shamt : BitVec 5) (s : State) : Result :=
  .next (s.retire
    { EMLatch.result rd (alu .sll (s.reg rt) (shiftAmount shamt)) with
      regWrite := encode (.sll rs rt rd shamt) != 0#32 })

/-- srl (R162): `x[rd] <- x[rt] >> shamt`, a logical shift. Its word is never zero, so the guard of the control
table's row (`40_datapath.md` R123) always holds. -/
def execSrl (_rs rt rd : RegNum) (shamt : BitVec 5) (s : State) : Result :=
  aluToReg .srl (s.reg rt) (shiftAmount shamt) rd s

end Sys2Proof.Machine
end

