-- ==== Sys2Proof/Machine/ImmediateAlu.lean ====
section
/-! DEFINITION. The immediate ALU instructions (`43_immediate_alu.md` R200 to R208). They write register `rt`
(`30_encoding.md` R90, D8, log 12); the extension of each immediate is `30_encoding.md` R89. -/

namespace Sys2Proof.Machine

/-- addi (R201): `x[rt] <- x[rs] + sext_32(imm)`. -/
def execAddi (rs rt : RegNum) (imm : BitVec 16) (s : State) : Result :=
  aluToReg .add (s.reg rs) (sext32 imm) rt s

/-- addiu (R202): `x[rt] <- x[rs] + sext_32(imm)`. -/
def execAddiu (rs rt : RegNum) (imm : BitVec 16) (s : State) : Result :=
  aluToReg .add (s.reg rs) (sext32 imm) rt s

/-- slti (R203): `x[rt] <- signed(x[rs]) < signed(sext_32(imm)) ? 1 : 0`. -/
def execSlti (rs rt : RegNum) (imm : BitVec 16) (s : State) : Result :=
  aluToReg .slt (s.reg rs) (sext32 imm) rt s

/-- sltiu (R204): `x[rt] <- unsigned(x[rs]) < unsigned(sext_32(imm)) ? 1 : 0` (D9, log 13). -/
def execSltiu (rs rt : RegNum) (imm : BitVec 16) (s : State) : Result :=
  aluToReg .sltu (s.reg rs) (sext32 imm) rt s

/-- andi (R205): `x[rt] <- x[rs] & zext_32(imm)`. -/
def execAndi (rs rt : RegNum) (imm : BitVec 16) (s : State) : Result :=
  aluToReg .and (s.reg rs) (zext32 imm) rt s

/-- ori (R206): `x[rt] <- x[rs] | zext_32(imm)`. -/
def execOri (rs rt : RegNum) (imm : BitVec 16) (s : State) : Result :=
  aluToReg .or (s.reg rs) (zext32 imm) rt s

/-- xori (R207): `x[rt] <- x[rs] ^ zext_32(imm)`. -/
def execXori (rs rt : RegNum) (imm : BitVec 16) (s : State) : Result :=
  aluToReg .xor (s.reg rs) (zext32 imm) rt s

/-- lui (R208): `x[rt] <- zext_32(imm) << 16`; `rs` is ignored (`40_datapath.md` R122 gives the ALU's unused input
`A` as `rs_val`). -/
def execLui (rs rt : RegNum) (imm : BitVec 16) (s : State) : Result :=
  aluToReg .lui (s.reg rs) (zext32 imm) rt s

end Sys2Proof.Machine
end

