-- ==== Sys2Proof/Machine/LoadStore.lean ====
section
/-! DEFINITION. The two data-memory instructions (`44_load_store.md` R220 to R224). Any address is a cell; nothing
faults (`20_memory.md` R60). -/

namespace Sys2Proof.Machine

/-- lw (R221): `x[rt] <- DMem(x[rs] + sext_32(imm))`. With `rt = 0` the read is performed and discarded. -/
def execLw (rs rt : RegNum) (imm : BitVec 16) (s : State) : Result :=
  .next (s.retire { EMLatch.result rt (effectiveAddress s rs imm) with memRead := true })

/-- sw (R222): `DMem(x[rs] + sext_32(imm)) <- x[rt]`. -/
def execSw (rs rt : RegNum) (imm : BitVec 16) (s : State) : Result :=
  .next (s.retire
    { EMLatch.idle with
      aluResult := effectiveAddress s rs imm
      memWrite  := true
      storeData := s.reg rt })

end Sys2Proof.Machine
end

