-- ==== Sys2Proof/Machine/System.lean ====
section
/-! DEFINITION. syscall and the words outside the opcode table (`45_system.md` R240 to R247). -/

namespace Sys2Proof.Machine

/-- syscall (R241, R242): halts when register 2 holds 10; the pc advances either way (`40_datapath.md` R137). The
code field is ignored (`30_encoding.md` R88). It is no trap (R244). -/
def execSyscall (_code : BitVec 20) (s : State) : Result :=
  .next ((s.haltIf (haltTest s)).retire EMLatch.idle)

/-- A word `w` that matches no row of the table (`30_encoding.md` R97): inert, the pc advances and nothing else
(R245; D7, log 6), or a fault (R246), as `ILLEGAL_POLICY` says. -/
def execUnlisted (w : Word) (s : State) : Result :=
  match s.cfg.illegalPolicy with
  | .inert => .next (s.retire EMLatch.idle)
  | .refuse => .fault (.unlisted w)

end Sys2Proof.Machine
end

