-- ==== Sys2Proof/Machine/Fetch.lean ====
section
/-! DEFINITION. The fetch unit and the decoder's latch (`20_memory.md` R51 to R53, `40_datapath.md` R111 to R116):
what a Step does before Execute. -/

namespace Sys2Proof.Machine

/-- The index of the word at address `a` in an image that starts at `base`, rounded down (`20_memory.md` R51, R53);
used only for `a` at or above `base`. -/
def imageIndex (base a : Word) : Nat := (a.toNat - base.toNat) / 4

/-- The fetch port `IMem(a)` (`20_memory.md` R51, R53). The misaligned check comes first: under
`MISALIGNED_FETCH = fault` it applies "in range or not" (R53; DEDUCED order, log 5). Below the base and past the
end the port delivers 0 (R52; D6, log 11). -/
def imem (c : Config) (prog : List Word) (a : Word) : Except Fault Word :=
  if c.misalignedFetch = .fault ∧ a.toNat % 4 ≠ 0 then .error (.misalignedFetch a)
  else if a.toNat < c.imemBase.toNat then .ok 0#32
  else .ok (prog.getD (imageIndex c.imemBase a) 0#32)

/-- Fetch at the pc (`40_datapath.md` R111). -/
def fetch (s : State) : Except Fault Word := imem s.cfg s.prog s.pc

/-- What the decoder writes to `DE` for the word `w` and next pc `npc` (`40_datapath.md` R114 to R116): every field
of the word, both extensions, and the two operands as the register file holds them at the start of the Step. -/
def deOf (s : State) (w npc : Word) : DELatch where
  opcode  := opcodeOf w
  rs      := rsOf w
  rt      := rtOf w
  rd      := rdOf w
  shamt   := shamtOf w
  funct   := functOf w
  immZext := zext32 (immOf w)
  immSext := sext32 (immOf w)
  jaddr   := targetOf w
  rsVal   := s.reg (rsOf w)
  rtVal   := s.reg (rtOf w)
  npc     := npc

/-- The state in which the instruction of the fetched word `w` executes: `FD` and `DE` written (`40_datapath.md`
R111, R114) and the cycle counted (R138). -/
def State.issue (s : State) (w : Word) : State :=
  { s with
    fd     := some { instr := w, npc := s.npc }
    de     := some (deOf s w s.npc)
    cycles := s.cycles + 1 }

end Sys2Proof.Machine
end

