-- ==== Sys2Proof/WellFormed.lean ====
section
/-! DEFINITION. The two checks the spec asks for. `Config.wf`: the configuration constraints of `10_state.md` R37,
one definition for each, which the loader enforces before reset. `Instr.assembled`: the form in which an assembler
emits an instruction (`30_encoding.md` R99), every ignored field zero; the hardware does not ask for it (R88) and no
meaning depends on it. The range of an instruction's fields needs no check: their widths are their types. -/

namespace Sys2Proof

/-- `IMEM_BASE mod 4 = 0` (`10_state.md` R37). -/
def Config.baseAligned (c : Config) : Bool := c.imemBase.toNat % 4 == 0

/-- `IMEM_BASE + 4*N <= 2^32` (`10_state.md` R37): an image of `n` words does not wrap. -/
def Config.imageFits (c : Config) (n : Nat) : Bool := decide (c.imemBase.toNat + 4 * n ≤ 2 ^ 32)

/-- `M <= 2^30` and `DMEM_BASE + 4*M <= 2^32` (`10_state.md` R37): `m` data words land at distinct addresses. -/
def Config.dataFits (c : Config) (m : Nat) : Bool :=
  decide (m ≤ 2 ^ 30) && decide (c.dmemBase.toNat + 4 * m ≤ 2 ^ 32)

/-- All constraints of `10_state.md` R37, for an image of `n` words and a data image of `m` words. -/
def Config.wf (c : Config) (n m : Nat) : Bool := c.baseAligned && c.imageFits n && c.dataFits m

/-- The assembler's form of an instruction (`30_encoding.md` R99): every field it ignores (R91) is zero. -/
def Instr.assembled (i : Instr) : Bool :=
  match i with
  | .add _ _ _ shamt | .addu _ _ _ shamt | .sub _ _ _ shamt | .subu _ _ _ shamt
  | .and _ _ _ shamt | .or _ _ _ shamt | .xor _ _ _ shamt | .nor _ _ _ shamt
  | .slt _ _ _ shamt | .sltu _ _ _ shamt => shamt == 0
  | .sll rs _ _ _ | .srl rs _ _ _ => rs == 0
  | .jr _ rt rd shamt => rt == 0 && rd == 0 && shamt == 0
  | .syscall code => code == 0
  | .lui rs _ _ => rs == 0
  | .j _ | .jal _ | .beq _ _ _ | .bne _ _ _ | .addi _ _ _ | .addiu _ _ _ | .slti _ _ _ | .sltiu _ _ _
  | .andi _ _ _ | .ori _ _ _ | .xori _ _ _ | .lw _ _ _ | .sw _ _ _ => true

/-- The instruction with every field it ignores (`30_encoding.md` R91) set to zero: the one an assembler emits. -/
def Instr.cleared (i : Instr) : Instr :=
  match i with
  | .add rs rt rd _ => .add rs rt rd 0#5
  | .addu rs rt rd _ => .addu rs rt rd 0#5
  | .sub rs rt rd _ => .sub rs rt rd 0#5
  | .subu rs rt rd _ => .subu rs rt rd 0#5
  | .and rs rt rd _ => .and rs rt rd 0#5
  | .or rs rt rd _ => .or rs rt rd 0#5
  | .xor rs rt rd _ => .xor rs rt rd 0#5
  | .nor rs rt rd _ => .nor rs rt rd 0#5
  | .slt rs rt rd _ => .slt rs rt rd 0#5
  | .sltu rs rt rd _ => .sltu rs rt rd 0#5
  | .sll _ rt rd shamt => .sll 0#5 rt rd shamt
  | .srl _ rt rd shamt => .srl 0#5 rt rd shamt
  | .jr rs _ _ _ => .jr rs 0#5 0#5 0#5
  | .syscall _ => .syscall 0#20
  | .j target => .j target
  | .jal target => .jal target
  | .beq rs rt imm => .beq rs rt imm
  | .bne rs rt imm => .bne rs rt imm
  | .addi rs rt imm => .addi rs rt imm
  | .addiu rs rt imm => .addiu rs rt imm
  | .slti rs rt imm => .slti rs rt imm
  | .sltiu rs rt imm => .sltiu rs rt imm
  | .andi rs rt imm => .andi rs rt imm
  | .ori rs rt imm => .ori rs rt imm
  | .xori rs rt imm => .xori rs rt imm
  | .lui _ rt imm => .lui 0#5 rt imm
  | .lw rs rt imm => .lw rs rt imm
  | .sw rs rt imm => .sw rs rt imm

end Sys2Proof
end

