-- ==== Sys2Proof/Machine/Loader.lean ====
section
/-! DEFINITION. The loader: how the two images reach the machine before the first Step (`70_reset_and_hazards.md`
R290 to R292, `10_state.md` R37, R38). A program comes to run in no other way (log 3). -/

namespace Sys2Proof.Machine

/-- The data image placed word by word from address `a` on, at a 4-byte stride (`20_memory.md` R64). -/
def loadImage (m : Memory) (a : Word) (data : List Word) : Memory :=
  match data with
  | [] => m
  | v :: rest => loadImage (Memory.write m a v) (a + 4#32) rest

/-- The state before the first Step: reset, then both images loaded (`10_state.md` R38). -/
def State.loaded (c : Config) (prog data : List Word) : State :=
  { State.resetWith c with prog := prog, mem := loadImage [] c.dmemBase data }

/-- Reset and load. A configuration outside `10_state.md` R37 is refused before reset. It is also the only way out
of the halted state (`70_reset_and_hazards.md` R295). -/
def boot (c : Config) (prog data : List Word) : Host.Outcome State Fault Refusal :=
  if c.wf prog.length data.length then .next (State.loaded c prog data) else .refused .badConfiguration

/-- The image with `w` as its word `k`, lengthened with zero words where it is shorter. -/
def placeWord (prog : List Word) (k : Nat) (w : Word) : List Word :=
  match k, prog with
  | 0, [] => [w]
  | 0, _ :: rest => w :: rest
  | k + 1, [] => 0#32 :: placeWord [] k w
  | k + 1, x :: rest => x :: placeWord rest k w

/-- Whether the fetch port can deliver an image word at the pc: at or above the base, and not turned away as
misaligned (`20_memory.md` R51, R53). -/
def pcFetchable (s : State) : Bool :=
  decide (s.cfg.imemBase.toNat ≤ s.pc.toNat) &&
    !(s.cfg.misalignedFetch == .fault && s.pc.toNat % 4 != 0)

/-- The address rounded down to a multiple of 4. -/
def alignDown (a : Word) : Word := a &&& 0xFFFFFFFC#32

/-- The state in which the next Step fetches and runs `w`: running, and `w` in the image at the pc. Where the port
delivers no image word at the pc (below the base, or misaligned under `fault`), the pc is rounded down and the image
is the one word `w` at it (the convention of `95_test_vectors.md`: "runs with `IMEM_BASE = pc` and the one-word
image"; log 3). -/
def State.placeFetch (s : State) (w : Word) : State :=
  if pcFetchable s then
    { s with halted := false, prog := placeWord s.prog (imageIndex s.cfg.imemBase s.pc) w }
  else
    { s with
      halted := false
      pc     := alignDown s.pc
      cfg    := { s.cfg with imemBase := alignDown s.pc }
      prog   := [w] }

end Sys2Proof.Machine
end

