-- ==== Sys2Proof/Machine/Step.lean ====
section
/-! DEFINITION. One Step (`40_datapath.md` R110, R136, R142): fetch, decode, run the instruction. -/

namespace Sys2Proof.Machine

/-- Execute of the fetched word, in the state `issue` leaves (`40_datapath.md` R119): the instruction's meaning, or
what an unlisted word does. -/
def executeWord (w : Word) (s : State) : Host.Outcome State Fault Refusal :=
  match decode w with
  | .ok i => exec i s
  | .error (.unlisted w) => execUnlisted w s

/-- A Step. Entered halted it does nothing (R136); a misaligned fetch leaves no next state (R113). -/
def step (s : State) : Host.Outcome State Fault Refusal :=
  if s.halted then .next s
  else
    match fetch s with
    | .error f => .fault f
    | .ok w => executeWord w (s.issue w)

/-- `s` with the instruction word `w` where the next Step fetches (`placeFetch`). The image holds 32-bit words
(`10_state.md` R24), so the word is placed whole. -/
def State.withFetchWord (s : State) (nbits w : Nat) : State :=
  s.placeFetch (BitVec.ofNat 32 (w % 2 ^ nbits))

end Sys2Proof.Machine
end

