-- ==== Sys2Proof/Machine/Datapath.lean ====
section
/-! DEFINITION. The datapath as the spec draws it (`40_datapath.md`): five stages over the latches, the control table
of R123 read column by column, the resolver of R124, the ports of `20_memory.md` R58 and R117, and the Step of R142
made of them. `Machine.step` runs the decoded instruction's own meaning instead; that the two are the same function
is a statement of its own, so each is a check on the other. -/

namespace Sys2Proof.Machine

/-! ### Execute: the control table by columns -/

/-- The ALU operation of a row (`40_datapath.md` R121, column "used by"); `none` where the row names none. -/
def aluOpOf (op : Op) : Option AluOp :=
  match op with
  | .add | .addu | .addi | .addiu | .lw | .sw => some .add
  | .sub | .subu => some .sub
  | .and | .andi => some .and
  | .or | .ori => some .or
  | .xor | .xori => some .xor
  | .nor => some .nor
  | .slt | .slti => some .slt
  | .sltu | .sltiu => some .sltu
  | .sll => some .sll
  | .srl => some .srl
  | .lui => some .lui
  | .jr | .syscall | .j | .jal | .beq | .bne => none

/-- Operand `A` (`40_datapath.md` R122). -/
def operandA (op : Op) (de : DELatch) : Word :=
  if op = .sll ∨ op = .srl then de.rtVal else de.rsVal

/-- Operand `B` (`40_datapath.md` R122, `30_encoding.md` R89); 0 for a row that uses no ALU. -/
def operandB (op : Op) (de : DELatch) : Word :=
  match op with
  | .add | .addu | .sub | .subu | .and | .or | .xor | .nor | .slt | .sltu => de.rtVal
  | .sll | .srl => shiftAmount de.shamt
  | .addi | .addiu | .slti | .sltiu | .lw | .sw => de.immSext
  | .andi | .ori | .xori | .lui => de.immZext
  | .jr | .syscall | .j | .jal | .beq | .bne => 0#32

/-- Column `alu_result` (`40_datapath.md` R123). -/
def aluResultOf (op : Op) (de : DELatch) : Word :=
  match aluOpOf op with
  | some aop => alu aop (operandA op de) (operandB op de)
  | none => if op = .jal then de.npc else 0#32

/-- Column `dest` with column `reg_write` (`40_datapath.md` R123, `30_encoding.md` R90): the register a row writes. -/
def destOf (op : Op) (de : DELatch) : Option RegNum :=
  match op with
  | .add | .addu | .sub | .subu | .and | .or | .xor | .nor | .slt | .sltu | .sll | .srl => some de.rd
  | .addi | .addiu | .slti | .sltiu | .andi | .ori | .xori | .lui | .lw => some de.rt
  | .jal => some linkReg
  | .jr | .syscall | .j | .beq | .bne | .sw => none

/-- Column `reg_write` (`40_datapath.md` R123): sll and srl write only where `FD.instr != 0`. -/
def regWriteOf (op : Op) (de : DELatch) (instr : Word) : Bool :=
  (destOf op de).isSome && (if op = .sll ∨ op = .srl then instr != 0#32 else true)

/-- The outputs of the control-transfer resolver (`40_datapath.md` R124). -/
structure Transfer where
  branch : Bool
  jump   : Bool
  target : Word
deriving DecidableEq, Repr

/-- The control-transfer resolver (`40_datapath.md` R124). -/
def resolve (op : Op) (rsVal rtVal npc immSext : Word) (jaddr : BitVec 26) : Transfer :=
  match op with
  | .jr => { branch := false, jump := true, target := rsVal }
  | .j | .jal => { branch := false, jump := true, target := jumpTarget npc jaddr }
  | .beq => { branch := takenEq rsVal rtVal, jump := false, target := branchTarget npc immSext }
  | .bne => { branch := takenNe rsVal rtVal, jump := false, target := branchTarget npc immSext }
  | .add | .addu | .sub | .subu | .and | .or | .xor | .nor | .slt | .sltu | .sll | .srl | .syscall
  | .addi | .addiu | .slti | .sltiu | .andi | .ori | .xori | .lui | .lw | .sw =>
    { branch := false, jump := false, target := 0#32 }

/-- `EM` of a row: every column of the control table (`40_datapath.md` R120, R123). -/
def controlRow (op : Op) (de : DELatch) (instr : Word) : EMLatch :=
  let transfer := resolve op de.rsVal de.rtVal de.npc de.immSext de.jaddr
  { aluResult := aluResultOf op de
    storeData := if op = .sw then de.rtVal else 0#32
    memRead   := op == .lw
    memWrite  := op == .sw
    regWrite  := regWriteOf op de instr
    dest      := (destOf op de).getD 0#5
    branch    := transfer.branch
    jump      := transfer.jump
    target    := transfer.target }

/-! ### The ports -/

/-- The inputs of the data-memory port (`20_memory.md` R58). -/
structure DataPort where
  addr  : Word   -- d_addr
  wdata : Word   -- d_wdata
  re    : Bool   -- d_re
  we    : Bool   -- d_we
deriving DecidableEq, Repr

/-- How the Memory stage drives the port (`20_memory.md` R58). -/
def dataPortOf (em : EMLatch) : DataPort where
  addr  := em.aluResult
  wdata := em.storeData
  re    := em.memRead
  we    := em.memWrite

/-- The port's output `d_rdata` (`20_memory.md` R58), 0 when nothing is read (`40_datapath.md` R126). -/
def DataPort.rdata (p : DataPort) (m : Memory) : Word := if p.re then Memory.read m p.addr else 0#32

/-- The memory after the Step (`20_memory.md` R57, R58). -/
def DataPort.after (p : DataPort) (m : Memory) : Memory := if p.we then Memory.write m p.addr p.wdata else m

/-- The register file's write port (`40_datapath.md` R117). -/
structure WritePort where
  wa : RegNum
  wd : Word
  we : Bool
deriving DecidableEq, Repr

/-- How WriteBack drives the write port (`40_datapath.md` R117, R133). -/
def writePortOf (mw : MWLatch) : WritePort where
  wa := mw.dest
  wd := if mw.memRead then mw.loadData else mw.aluResult
  we := mw.regWrite

/-! ### The stages -/

/-- Fetch (`40_datapath.md` R111, R113). -/
def fetchStage (s : State) : Except Fault State :=
  match imem s.cfg s.prog s.pc with
  | .error f => .error f
  | .ok w => .ok { s with fd := some { instr := w, npc := s.pc + 4#32 } }

/-- Decode (`40_datapath.md` R114 to R116); nothing if `FD` is empty. -/
def decodeStage (s : State) : State :=
  match s.fd with
  | none => s
  | some fd => { s with de := some (deOf s fd.instr fd.npc) }

/-- Execute (`40_datapath.md` R119 to R125); nothing if a latch it reads is empty. -/
def executeStage (s : State) : Except Fault State :=
  match s.fd, s.de with
  | some fd, some de =>
    match lookup de.opcode de.funct with
    | some op =>
      .ok { s with
        em     := some (controlRow op de fd.instr)
        halted := s.halted || (op == .syscall && s.reg haltReg == haltCode) }
    | none =>
      match s.cfg.illegalPolicy with
      | .inert => .ok { s with em := some EMLatch.idle }
      | .refuse => .error (.unlisted fd.instr)
  | _, _ => .ok s

/-- Memory (`40_datapath.md` R126 to R132); the sequential next pc is read from `FD` (R130). -/
def memStage (s : State) : State :=
  match s.fd, s.em with
  | some fd, some em =>
    { s with
      mem := (dataPortOf em).after s.mem
      pc  := if em.branch || em.jump then em.target else fd.npc
      mw  := some {
        loadData  := (dataPortOf em).rdata s.mem
        aluResult := em.aluResult
        regWrite  := em.regWrite
        dest      := em.dest
        memRead   := em.memRead } }
  | _, _ => s

/-- WriteBack (`40_datapath.md` R133), through the write port. -/
def writeBackStage (s : State) : State :=
  match s.mw with
  | none => s
  | some mw =>
    let p := writePortOf mw
    if p.we ∧ p.wa ≠ 0#5 then { s with regs := s.regs.set p.wa.toNat p.wd p.wa.isLt } else s

/-- The whole Step (`40_datapath.md` R142). -/
def datapathStep (s : State) : Host.Outcome State Fault Refusal :=
  if s.halted then .next s
  else
    match fetchStage s with
    | .error f => .fault f
    | .ok s1 =>
      match executeStage (decodeStage s1) with
      | .error f => .fault f
      | .ok s2 =>
        let s3 := writeBackStage (memStage s2)
        .next { s3 with cycles := s.cycles + 1 }

end Sys2Proof.Machine
end

