-- ==== Sys2Proof/Machine/Run.lean ====
section
/-! DEFINITION. The Run controller and what the host reads (`40_datapath.md` R139 to R141). -/

namespace Sys2Proof.Machine

/-- How a run under fuel ends. Only `halted` is an end of Run itself (`40_datapath.md` R140); running out of fuel is
the host's verdict and no state of the CORE (D20, log 7). -/
inductive RunResult where
  | halted    (cycles : Nat) (s : State)   -- Run's own end: the cycle count and the final state (R139)
  | outOfFuel (s : State)                  -- the host's limit
  | fault     (f : Fault)                  -- a Step had no next state (R139, R273): not a finished run
  | refused   (r : Refusal)                -- no Step of this model refuses
deriving DecidableEq, Repr

/-- Run (`40_datapath.md` R139) under `fuel` Steps. -/
def run (fuel : Nat) (s : State) : RunResult :=
  match fuel with
  | 0 => if s.halted then .halted s.cycles s else .outOfFuel s
  | fuel + 1 =>
    if s.halted then .halted s.cycles s
    else
      match step s with
      | .next t => run fuel t
      | .fault f => .fault f
      | .refused r => .refused r

/-- The per-cycle diagnostic snapshot (`40_datapath.md` R141): the values only, formatting is out of scope. -/
structure Snapshot where
  pc   : Word
  fd   : Option FDLatch
  de   : Option DELatch
  em   : Option EMLatch
  mw   : Option MWLatch
  regs : List Word      -- all 32 registers
  mem  : Memory         -- the non-zero memory entries
deriving DecidableEq, Repr

/-- What the host reads between Steps (`40_datapath.md` R141). The listed cells of a canonical memory are exactly
the non-zero ones. -/
def snapshot (s : State) : Snapshot where
  pc   := s.pc
  fd   := s.fd
  de   := s.de
  em   := s.em
  mw   := s.mw
  regs := (List.range 32).map fun k => s.reg (BitVec.ofNat 5 k)
  mem  := s.mem

/-- The five-word window at the data base (`40_datapath.md` R141, `20_memory.md` R64). -/
def dataWindow (s : State) : List Word :=
  (List.range 5).map fun k => s.dmem (s.cfg.dmemBase + BitVec.ofNat 32 (4 * k))

/-- The end-of-run summary (`40_datapath.md` R141). -/
structure Summary where
  cycles : Nat
  before : List Word
  after  : List Word
deriving DecidableEq, Repr

/-- The summary of a run from `s`, where it ends by halting. -/
def summary (fuel : Nat) (s : State) : Option Summary :=
  match run fuel s with
  | .halted cycles t => some { cycles := cycles, before := dataWindow s, after := dataWindow t }
  | .outOfFuel _ => none
  | .fault _ => none
  | .refused _ => none

end Sys2Proof.Machine
end

