-- ==== Sys2Proof/Safety.lean ====
section
/-! DEFINITION. The terms claims are stated in: what every reachable state satisfies, what an instruction changes and
leaves unchanged, when a run cannot fault. -/

namespace Sys2Proof.Machine

/-! ### The invariant -/

/-- `DE` holds the fields of the word `w` (`40_datapath.md` R114). -/
def DELatch.holdsFieldsOf (de : DELatch) (w : Word) : Bool :=
  de.opcode == opcodeOf w && de.rs == rsOf w && de.rt == rtOf w && de.rd == rdOf w && de.shamt == shamtOf w &&
    de.funct == functOf w && de.immZext == zext32 (immOf w) && de.immSext == sext32 (immOf w) &&
    de.jaddr == targetOf w

/-- The latches between two Steps: all empty before the first Step, afterwards all populated with one instruction's
values (`40_datapath.md` R116, R128, R132, R135). -/
def State.latchesOk (s : State) : Bool :=
  match s.fd, s.de, s.em, s.mw with
  | none, none, none, none => s.cycles == 0
  | some fd, some de, some em, some mw =>
    decide (0 < s.cycles) && de.holdsFieldsOf fd.instr && de.npc == fd.npc && mw == mwOf em mw.loadData &&
      (em.memRead || mw.loadData == 0#32) && !(em.memRead && em.memWrite) && !(em.branch && em.jump)
  | _, _, _, _ => false

/-- A halted machine stands after its halting syscall: the word in `FD` is a syscall, register 2 holds 10, and the
pc is the syscall's address plus 4 (`60_exceptions.md` R264). -/
def State.haltOk (s : State) : Bool :=
  !s.halted ||
    match s.fd with
    | none => false
    | some fd => lookup (opcodeOf fd.instr) (functOf fd.instr) == some .syscall && haltTest s && s.pc == fd.npc

/-- What reset establishes and every Step keeps: the configuration constraints on the instruction image
(`10_state.md` R37), the canonical memory, register 0 zero where it is stored too (R21), and the two conditions on the
latches and the halt. -/
def State.inv (s : State) : Bool :=
  s.cfg.baseAligned && s.cfg.imageFits s.prog.length && Memory.wf s.mem && s.regs[0] == 0#32 && s.latchesOk && s.haltOk

/-! ### What an instruction changes -/

/-- No register reads differently. -/
def SameRegs (s t : State) : Prop := ∀ r, t.reg r = s.reg r

/-- Register `dest` reads `v` and no other register reads differently; for `dest = 0` nothing is written. -/
def WroteReg (s t : State) (dest : RegNum) (v : Word) : Prop :=
  ∀ r, t.reg r = if r = dest ∧ dest ≠ 0#5 then v else s.reg r

/-- No cell of the data memory reads differently. -/
def SameMem (s t : State) : Prop := ∀ a, t.dmem a = s.dmem a

/-- The cell at `a` reads `v` and no other cell reads differently. -/
def WroteCell (s t : State) (a v : Word) : Prop := ∀ b, t.dmem b = if b = a then v else s.dmem b

/-- What no instruction's own effect touches: the host inputs, the instruction image, the cycle count, and the
latches that Fetch and Decode wrote. -/
def SameRest (s t : State) : Prop :=
  t.cfg = s.cfg ∧ t.prog = s.prog ∧ t.cycles = s.cycles ∧ t.fd = s.fd ∧ t.de = s.de

/-- `i` completes in every state, its whole effect on what a program can see being `x[dest] <- value; pc <- pc + 4`. -/
def SetsReg (i : Instr) (dest : RegNum) (value : State → Word) : Prop :=
  ∀ s, ∃ t, exec i s = .next t ∧ WroteReg s t dest (value s) ∧ t.pc = s.pc + 4#32 ∧
    t.halted = s.halted ∧ SameMem s t ∧ SameRest s t

/-- `i` completes in every state, its whole effect on what a program can see being `pc <- target`. -/
def GoesTo (i : Instr) (target : State → Word) : Prop :=
  ∀ s, ∃ t, exec i s = .next t ∧ SameRegs s t ∧ t.pc = target s ∧ t.halted = s.halted ∧ SameMem s t ∧ SameRest s t

/-- The words `w` with `w & mask = pattern` are the ones that decode to the instruction with the fields `mk` takes
from `w` (`30_encoding.md` R95). -/
def SelectedBy (mask pattern : Word) (mk : Word → Instr) : Prop :=
  ∀ w, w &&& mask = pattern ↔ decode w = .ok (mk w)

/-- Two states that agree on everything but the latches. -/
def SameButLatches (s t : State) : Prop :=
  t.cfg = s.cfg ∧ t.prog = s.prog ∧ t.regs = s.regs ∧ t.pc = s.pc ∧ t.halted = s.halted ∧ t.mem = s.mem ∧
    t.cycles = s.cycles

/-! ### Safe runs -/

/-- No Step from a state with this configuration can fault (`60_exceptions.md` R273). -/
def faultFree (c : Config) : Bool := c.misalignedFetch == .truncate && c.illegalPolicy == .inert

/-- A run of the state never reaches a fault, whatever the fuel. -/
def NeverFaults (s : State) : Prop := ∀ fuel f, run fuel s ≠ .fault f

end Sys2Proof.Machine
end

