-- ==== Sys2Proof/Certificates/Slice0/Obligations.lean ====
section
/-! DEFINITION. The statements for the provers. Each formalises what the cited rules of `spec/` say; where one rests
on a choice of the model, or on a decision or an inference that the spec marks as its own, its docstring says so and
names the log entry. Every sum of an address or a pc is modulo 2^32, the width the rules write (decision D2, log 9). -/

open Sys2Proof Sys2Proof.Machine

/-! ### Encoding and decoder (`30_encoding.md`) -/

/-- `30_encoding.md` R81: bit `k` of the field `w[hi:lo]` is bit `lo + k` of the word. The bit positions are the
spec's own reading of the source (log 15). -/
def Obligations.FieldsStandAtTheirBits : Prop :=
  ∀ (w : Word) (k : Nat),
    (k < 6 → (opcodeOf w).getLsbD k = w.getLsbD (26 + k)) ∧
    (k < 5 → (rsOf w).getLsbD k = w.getLsbD (21 + k)) ∧
    (k < 5 → (rtOf w).getLsbD k = w.getLsbD (16 + k)) ∧
    (k < 5 → (rdOf w).getLsbD k = w.getLsbD (11 + k)) ∧
    (k < 5 → (shamtOf w).getLsbD k = w.getLsbD (6 + k)) ∧
    (k < 6 → (functOf w).getLsbD k = w.getLsbD k) ∧
    (k < 16 → (immOf w).getLsbD k = w.getLsbD k) ∧
    (k < 26 → (targetOf w).getLsbD k = w.getLsbD k)

/-- `00_scope.md` R12: `zext_32(v)` is `v` as a number; `sext_32(v)` is `v`, plus `0xFFFF0000` when bit 15 is set. -/
def Obligations.ImmediatesExtendByBit15 : Prop :=
  ∀ v : BitVec 16, (zext32 v).toNat = v.toNat ∧
    sext32 v = if v.getLsbD 15 then zext32 v + 0xFFFF0000#32 else zext32 v

/-- `30_encoding.md` R86, R87: a branch target is `npc` plus four times the signed immediate, modulo 2^32, with the
same value mod 4 as `npc`; a jump target is the top four bits of `npc`, the field, and two zero bits. The wrap is the
spec's decision D2 (log 9). -/
def Obligations.TransferTargetsAsNumbers : Prop :=
  (∀ (npc : Word) (imm : BitVec 16),
    branchTarget npc (sext32 imm) = npc + BitVec.ofInt 32 (4 * imm.toInt) ∧
    (branchTarget npc (sext32 imm)).toNat % 4 = npc.toNat % 4) ∧
  ∀ (npc : Word) (field : BitVec 26),
    (jumpTarget npc field).toNat = npc.toNat / 2 ^ 28 * 2 ^ 28 + field.toNat * 4

/-- `30_encoding.md` R95: the table has 28 rows, a word is the instruction of a row iff it matches the row's pattern
under its mask, and no two rows match the same word (the last by the spec's own inference). -/
def Obligations.OpcodeTableSelectsTheInstruction : Prop :=
  opcodeTable.length = 28 ∧
  (∀ row ∈ opcodeTable, ∀ w : Word,
    w &&& row.mask = row.pattern ↔ ∃ i, decode w = .ok i ∧ i.op = row.op) ∧
  ∀ r ∈ opcodeTable, ∀ r' ∈ opcodeTable, ∀ w : Word,
    w &&& r.mask = r.pattern → w &&& r'.mask = r'.pattern → r = r'

/-- `30_encoding.md` R97: the decoder rejects exactly the words that match no row, that is 50 funct values under
opcode 0 and 49 other opcodes whatever the funct. -/
def Obligations.DecoderRejectsExactlyTheUnlistedWords : Prop :=
  (∀ w : Word, decode w = .error (.unlisted w) ↔ ∀ row ∈ opcodeTable, w &&& row.mask ≠ row.pattern) ∧
  ((List.range 64).filter fun f => (lookup 0#6 (BitVec.ofNat 6 f)).isNone).length = 50 ∧
  ((List.range 64).filter fun o => o != 0 && (lookup (BitVec.ofNat 6 o) 0#6).isNone).length = 49 ∧
  ∀ opcode funct funct' : BitVec 6, opcode ≠ 0#6 → lookup opcode funct = lookup opcode funct'

/-- Decode and encode agree: every instruction, with every operand and every ignored field at every value its width
admits, is read back from its word. -/
def Obligations.DecodeOfEncodeIsTheInstruction : Prop :=
  ∀ i : Instr, decode (encode i) = .ok i

/-- The other direction: the encoder gives back every word that decodes, so no bit of a word is lost (the ignored
fields stay in the instruction, log 8). -/
def Obligations.EncodeOfDecodeIsTheWord : Prop :=
  ∀ (w : Word) (i : Instr), decode w = .ok i → encode i = w

/-- `30_encoding.md` R88: the instruction is selected by opcode, and funct where the opcode is 0, alone; the fields it
ignores may hold any value and it executes the same (`cleared` sets them to zero, which is the assembler's form). That
ignored fields may hold anything is the spec's inference from its dispatch rule (log 8). -/
def Obligations.IgnoredFieldsDoNotMatter : Prop :=
  (∀ w w' : Word, opcodeOf w = opcodeOf w' → (opcodeOf w = 0#6 → functOf w = functOf w') →
    ∀ i, decode w = .ok i → ∃ i', decode w' = .ok i' ∧ i'.op = i.op) ∧
  (∀ i : Instr, i.assembled = true ↔ i.cleared = i) ∧
  ∀ (i : Instr) (s : State), i.cleared.op = i.op ∧
    ∃ t u, exec i s = .next t ∧ exec i.cleared s = .next u ∧ SameButLatches t u

/-- A sanity check: words written out in the spec decode to the instructions they stand for (`95_test_vectors.md`
V-DEC-1, V-DEC-2, V-DEC-4, V-SYS-4, V-CT-1, V-IALU-17). -/
def Obligations.SampleWordsDecode : Prop :=
  decode 0x8D09FFFC#32 = .ok (.lw 8#5 9#5 0xFFFC#16) ∧
  decode 0x00000000#32 = .ok (.sll 0#5 0#5 0#5 0#5) ∧
  decode 0x0C100100#32 = .ok (.jal 0x100100#26) ∧
  decode 0x002AF34C#32 = .ok (.syscall 0x0ABCD#20) ∧
  decode 0x11090003#32 = .ok (.beq 8#5 9#5 3#16) ∧
  decode 0x3D098000#32 = .ok (.lui 8#5 9#5 0x8000#16) ∧
  decode 0x7C000000#32 = .error (.unlisted 0x7C000000#32)

/-! ### The ALU (`40_datapath.md`) -/

/-- `40_datapath.md` R121 with the operators of `00_scope.md` R11, in integers and bits: what each ALU operation
computes, for all operands. -/
def Obligations.AluComputesTheOperations : Prop :=
  ∀ a b : Word,
    (alu .add a b).toNat = (a.toNat + b.toNat) % 2 ^ 32 ∧
    ((alu .sub a b).toNat : Int) = ((a.toNat : Int) - b.toNat) % 2 ^ 32 ∧
    (∀ k < 32, (alu .and a b).getLsbD k = (a.getLsbD k && b.getLsbD k) ∧
      (alu .or a b).getLsbD k = (a.getLsbD k || b.getLsbD k) ∧
      (alu .xor a b).getLsbD k = (a.getLsbD k != b.getLsbD k) ∧
      (alu .nor a b).getLsbD k = !(a.getLsbD k || b.getLsbD k)) ∧
    (alu .slt a b = if a.toInt < b.toInt then 1#32 else 0#32) ∧
    (alu .sltu a b = if a.toNat < b.toNat then 1#32 else 0#32) ∧
    (alu .sll a b).toNat = a.toNat * 2 ^ (b.toNat % 32) % 2 ^ 32 ∧
    (alu .srl a b).toNat = a.toNat / 2 ^ (b.toNat % 32) ∧
    (alu .lui a b).toNat = b.toNat * 2 ^ 16 % 2 ^ 32

/-! ### The instructions: result, completion and frame -/

/-- `41_register_alu.md` R151, R152: which words are add and addu, and `x[rd] <- x[rs] + x[rt]` modulo 2^32 in every
state, with `rd = 0` writing nothing, no trap on overflow, and everything else unchanged. -/
def Obligations.AddAndAdduWriteTheSum : Prop :=
  SelectedBy 0xFC00003F#32 0x00000020#32 (fun w => .add (rsOf w) (rtOf w) (rdOf w) (shamtOf w)) ∧
  SelectedBy 0xFC00003F#32 0x00000021#32 (fun w => .addu (rsOf w) (rtOf w) (rdOf w) (shamtOf w)) ∧
  ∀ (rs rt rd : RegNum) (shamt : BitVec 5),
    SetsReg (.add rs rt rd shamt) rd (fun s => s.reg rs + s.reg rt) ∧
    SetsReg (.addu rs rt rd shamt) rd (fun s => s.reg rs + s.reg rt)

/-- `41_register_alu.md` R153, R154: `x[rd] <- x[rs] - x[rt]` modulo 2^32. -/
def Obligations.SubAndSubuWriteTheDifference : Prop :=
  SelectedBy 0xFC00003F#32 0x00000022#32 (fun w => .sub (rsOf w) (rtOf w) (rdOf w) (shamtOf w)) ∧
  SelectedBy 0xFC00003F#32 0x00000023#32 (fun w => .subu (rsOf w) (rtOf w) (rdOf w) (shamtOf w)) ∧
  ∀ (rs rt rd : RegNum) (shamt : BitVec 5),
    SetsReg (.sub rs rt rd shamt) rd (fun s => s.reg rs - s.reg rt) ∧
    SetsReg (.subu rs rt rd shamt) rd (fun s => s.reg rs - s.reg rt)

/-- `41_register_alu.md` R155 to R158: and, or, xor, nor on 32 bits. -/
def Obligations.BitwiseOpsWriteRd : Prop :=
  SelectedBy 0xFC00003F#32 0x00000024#32 (fun w => .and (rsOf w) (rtOf w) (rdOf w) (shamtOf w)) ∧
  SelectedBy 0xFC00003F#32 0x00000025#32 (fun w => .or (rsOf w) (rtOf w) (rdOf w) (shamtOf w)) ∧
  SelectedBy 0xFC00003F#32 0x00000026#32 (fun w => .xor (rsOf w) (rtOf w) (rdOf w) (shamtOf w)) ∧
  SelectedBy 0xFC00003F#32 0x00000027#32 (fun w => .nor (rsOf w) (rtOf w) (rdOf w) (shamtOf w)) ∧
  ∀ (rs rt rd : RegNum) (shamt : BitVec 5),
    SetsReg (.and rs rt rd shamt) rd (fun s => s.reg rs &&& s.reg rt) ∧
    SetsReg (.or rs rt rd shamt) rd (fun s => s.reg rs ||| s.reg rt) ∧
    SetsReg (.xor rs rt rd shamt) rd (fun s => s.reg rs ^^^ s.reg rt) ∧
    SetsReg (.nor rs rt rd shamt) rd (fun s => ~~~(s.reg rs ||| s.reg rt))

/-- `41_register_alu.md` R159, R160: the signed and the unsigned comparison, as integers. -/
def Obligations.SetLessThanWritesRd : Prop :=
  SelectedBy 0xFC00003F#32 0x0000002A#32 (fun w => .slt (rsOf w) (rtOf w) (rdOf w) (shamtOf w)) ∧
  SelectedBy 0xFC00003F#32 0x0000002B#32 (fun w => .sltu (rsOf w) (rtOf w) (rdOf w) (shamtOf w)) ∧
  ∀ (rs rt rd : RegNum) (shamt : BitVec 5),
    SetsReg (.slt rs rt rd shamt) rd (fun s => if (s.reg rs).toInt < (s.reg rt).toInt then 1#32 else 0#32) ∧
    SetsReg (.sltu rs rt rd shamt) rd (fun s => if (s.reg rs).toNat < (s.reg rt).toNat then 1#32 else 0#32)

/-- `41_register_alu.md` R161: sll writes `x[rt] << shamt` to `rd` for every `shamt`, and the zero word, which is sll
of zeros, makes no register write (`EM.reg_write` is false for it, and true for every other sll). -/
def Obligations.SllShiftsLeft : Prop :=
  SelectedBy 0xFC00003F#32 0x00000000#32 (fun w => .sll (rsOf w) (rtOf w) (rdOf w) (shamtOf w)) ∧
  (∀ (rs rt rd : RegNum) (shamt : BitVec 5),
    SetsReg (.sll rs rt rd shamt) rd (fun s => BitVec.ofNat 32 ((s.reg rt).toNat * 2 ^ shamt.toNat))) ∧
  ∀ (rs rt rd : RegNum) (shamt : BitVec 5) (s : State),
    ∃ t em, exec (.sll rs rt rd shamt) s = .next t ∧ t.em = some em ∧
    (em.regWrite = false ↔ rs = 0#5 ∧ rt = 0#5 ∧ rd = 0#5 ∧ shamt = 0#5)

/-- `41_register_alu.md` R162: srl is a logical shift, `floor(x[rt] / 2^shamt)`. -/
def Obligations.SrlShiftsRightLogically : Prop :=
  SelectedBy 0xFC00003F#32 0x00000002#32 (fun w => .srl (rsOf w) (rtOf w) (rdOf w) (shamtOf w)) ∧
  ∀ (rs rt rd : RegNum) (shamt : BitVec 5),
    SetsReg (.srl rs rt rd shamt) rd (fun s => BitVec.ofNat 32 ((s.reg rt).toNat / 2 ^ shamt.toNat))

/-- `43_immediate_alu.md` R201, R202: `x[rt] <- x[rs] + sext_32(imm)` modulo 2^32, no trap. -/
def Obligations.AddiAndAddiuAddTheSignedImmediate : Prop :=
  SelectedBy 0xFC000000#32 0x20000000#32 (fun w => .addi (rsOf w) (rtOf w) (immOf w)) ∧
  SelectedBy 0xFC000000#32 0x24000000#32 (fun w => .addiu (rsOf w) (rtOf w) (immOf w)) ∧
  ∀ (rs rt : RegNum) (imm : BitVec 16),
    SetsReg (.addi rs rt imm) rt (fun s => s.reg rs + sext32 imm) ∧
    SetsReg (.addiu rs rt imm) rt (fun s => s.reg rs + sext32 imm)

/-- `43_immediate_alu.md` R203: slti compares with the sign-extended immediate, both as signed integers. -/
def Obligations.SltiComparesAsSigned : Prop :=
  SelectedBy 0xFC000000#32 0x28000000#32 (fun w => .slti (rsOf w) (rtOf w) (immOf w)) ∧
  ∀ (rs rt : RegNum) (imm : BitVec 16),
    SetsReg (.slti rs rt imm) rt (fun s => if (s.reg rs).toInt < (sext32 imm).toInt then 1#32 else 0#32)

/-- `43_immediate_alu.md` R204: sltiu compares as unsigned, with the sign-extended immediate; which extension it is, is
the spec's decision D9 (log 13). -/
def Obligations.SltiuComparesAsUnsigned : Prop :=
  SelectedBy 0xFC000000#32 0x2C000000#32 (fun w => .sltiu (rsOf w) (rtOf w) (immOf w)) ∧
  ∀ (rs rt : RegNum) (imm : BitVec 16),
    SetsReg (.sltiu rs rt imm) rt (fun s => if (s.reg rs).toNat < (sext32 imm).toNat then 1#32 else 0#32)

/-- `43_immediate_alu.md` R205 to R207: andi, ori, xori with the zero-extended immediate. -/
def Obligations.BitwiseImmediatesZeroExtend : Prop :=
  SelectedBy 0xFC000000#32 0x30000000#32 (fun w => .andi (rsOf w) (rtOf w) (immOf w)) ∧
  SelectedBy 0xFC000000#32 0x34000000#32 (fun w => .ori (rsOf w) (rtOf w) (immOf w)) ∧
  SelectedBy 0xFC000000#32 0x38000000#32 (fun w => .xori (rsOf w) (rtOf w) (immOf w)) ∧
  ∀ (rs rt : RegNum) (imm : BitVec 16),
    SetsReg (.andi rs rt imm) rt (fun s => s.reg rs &&& zext32 imm) ∧
    SetsReg (.ori rs rt imm) rt (fun s => s.reg rs ||| zext32 imm) ∧
    SetsReg (.xori rs rt imm) rt (fun s => s.reg rs ^^^ zext32 imm)

/-- `43_immediate_alu.md` R208: `x[rt] <- imm << 16`, whatever the `rs` field holds. -/
def Obligations.LuiLoadsTheUpperHalf : Prop :=
  SelectedBy 0xFC000000#32 0x3C000000#32 (fun w => .lui (rsOf w) (rtOf w) (immOf w)) ∧
  ∀ (rs rt : RegNum) (imm : BitVec 16),
    SetsReg (.lui rs rt imm) rt (fun _ => BitVec.ofNat 32 (imm.toNat * 2 ^ 16))

/-- `42_control_transfer.md` R181: jr goes to the full value of `x[rs]`, aligned or not, and writes no register. -/
def Obligations.JrGoesToTheRegister : Prop :=
  SelectedBy 0xFC00003F#32 0x00000008#32 (fun w => .jr (rsOf w) (rtOf w) (rdOf w) (shamtOf w)) ∧
  ∀ (rs rt rd : RegNum) (shamt : BitVec 5), GoesTo (.jr rs rt rd shamt) (fun s => s.reg rs)

/-- `42_control_transfer.md` R182: j takes the top four bits from `npc = pc + 4`. -/
def Obligations.JGoesToTheTarget : Prop :=
  SelectedBy 0xFC000000#32 0x08000000#32 (fun w => .j (targetOf w)) ∧
  ∀ target : BitVec 26, GoesTo (.j target)
    (fun s => ((s.pc + 4#32) &&& 0xF0000000#32) ||| (target.setWidth 32 <<< 2))

/-- `42_control_transfer.md` R183: jal links `pc + 4` into register 31 and goes where j would. -/
def Obligations.JalLinksAndGoes : Prop :=
  SelectedBy 0xFC000000#32 0x0C000000#32 (fun w => .jal (targetOf w)) ∧
  ∀ (target : BitVec 26) (s : State), ∃ t, exec (.jal target) s = .next t ∧
    WroteReg s t 31#5 (s.pc + 4#32) ∧
    t.pc = ((s.pc + 4#32) &&& 0xF0000000#32) ||| (target.setWidth 32 <<< 2) ∧
    t.halted = s.halted ∧ SameMem s t ∧ SameRest s t

/-- `42_control_transfer.md` R184, R185: beq is taken on equality of all 32 bits and bne otherwise; the target counts
from `pc + 4`, and no register is written. -/
def Obligations.BeqAndBneBranch : Prop :=
  SelectedBy 0xFC000000#32 0x10000000#32 (fun w => .beq (rsOf w) (rtOf w) (immOf w)) ∧
  SelectedBy 0xFC000000#32 0x14000000#32 (fun w => .bne (rsOf w) (rtOf w) (immOf w)) ∧
  ∀ (rs rt : RegNum) (imm : BitVec 16),
    GoesTo (.beq rs rt imm) (fun s =>
      if s.reg rs = s.reg rt then s.pc + 4#32 + (sext32 imm <<< 2) else s.pc + 4#32) ∧
    GoesTo (.bne rs rt imm) (fun s =>
      if s.reg rs ≠ s.reg rt then s.pc + 4#32 + (sext32 imm <<< 2) else s.pc + 4#32)

/-- `44_load_store.md` R221: lw reads the cell at `x[rs] + sext_32(imm)` into `rt`, in every state and at every address;
with `rt = 0` the word is discarded. -/
def Obligations.LwLoadsTheCell : Prop :=
  SelectedBy 0xFC000000#32 0x8C000000#32 (fun w => .lw (rsOf w) (rtOf w) (immOf w)) ∧
  ∀ (rs rt : RegNum) (imm : BitVec 16), SetsReg (.lw rs rt imm) rt (fun s => s.dmem (s.reg rs + sext32 imm))

/-- `44_load_store.md` R222: sw writes `x[rt]` to the cell at the effective address, `x[rs] + sext_32(imm)`, in every
state and at every address. Every other cell and every register reads as before. -/
def Obligations.SwStoresTheCell : Prop :=
  SelectedBy 0xFC000000#32 0xAC000000#32 (fun w => .sw (rsOf w) (rtOf w) (immOf w)) ∧
  ∀ (rs rt : RegNum) (imm : BitVec 16) (s : State), effectiveAddress s rs imm = s.reg rs + sext32 imm ∧
    ∃ t, exec (.sw rs rt imm) s = .next t ∧ WroteCell s t (effectiveAddress s rs imm) (s.reg rt) ∧
      SameRegs s t ∧ t.pc = s.pc + 4#32 ∧ t.halted = s.halted ∧ SameRest s t

/-- `45_system.md` R241, R242: syscall sets `halted` exactly when register 2 holds 10 (all 32 bits), and otherwise
only advances the pc; the code field is ignored. That all 32 bits are compared is the spec's decision D21 (log 14). -/
def Obligations.SyscallHaltsOnTen : Prop :=
  SelectedBy 0xFC00003F#32 0x0000000C#32 (fun w => .syscall (codeOf w)) ∧
  ∀ (code : BitVec 20) (s : State), ∃ t, exec (.syscall code) s = .next t ∧
    (t.halted = true ↔ s.halted = true ∨ s.reg 2#5 = 10#32) ∧
    SameRegs s t ∧ t.pc = s.pc + 4#32 ∧ SameMem s t ∧ SameRest s t

/-! ### Reset, load, fetch -/

/-- `10_state.md` R38: reset and load under a legal configuration leave every piece of state at its reset value, word
`i` of the image at `IMEM_BASE + 4*i`, `DATA[j]` in cell `DMEM_BASE + 4*j` and 0 in every other cell. The start pc, the
legality conditions and the cycle count are the spec's decisions D3, D4, D15 (log 10, 16, 17). -/
def Obligations.BootLeavesTheResetState : Prop :=
  ∀ (c : Config) (prog data : List Word), c.imemBase.toNat % 4 = 0 →
    c.imemBase.toNat + 4 * prog.length ≤ 2 ^ 32 → data.length ≤ 2 ^ 30 →
    c.dmemBase.toNat + 4 * data.length ≤ 2 ^ 32 →
    ∃ s, boot c prog data = .next s ∧
      s.cfg = c ∧ s.prog = prog ∧ (∀ r, s.reg r = 0#32) ∧ s.pc = c.imemBase ∧ s.halted = false ∧
      s.fd = none ∧ s.de = none ∧ s.em = none ∧ s.mw = none ∧ s.cycles = 0 ∧
      (∀ (k : Nat) (h : k < prog.length), imem c prog (c.imemBase + BitVec.ofNat 32 (4 * k)) = .ok prog[k]) ∧
      (∀ (j : Nat) (h : j < data.length), s.dmem (c.dmemBase + BitVec.ofNat 32 (4 * j)) = data[j]) ∧
      ∀ a, (∀ j < data.length, a ≠ c.dmemBase + BitVec.ofNat 32 (4 * j)) → s.dmem a = 0#32

/-- `10_state.md` R37: a configuration is refused before reset exactly when it breaks one of the constraints, the
spec's decision D4 (log 16). -/
def Obligations.IllegalConfigurationIsRefused : Prop :=
  ∀ (c : Config) (prog data : List Word),
    boot c prog data = .refused .badConfiguration ↔
      ¬ (c.imemBase.toNat % 4 = 0 ∧ c.imemBase.toNat + 4 * prog.length ≤ 2 ^ 32 ∧ data.length ≤ 2 ^ 30 ∧
        c.dmemBase.toNat + 4 * data.length ≤ 2 ^ 32)

/-- `State.reset` is boot with the default configuration of `00_scope.md` R8 and empty images; that the images are
empty before a load is the model's choice (log 3). -/
def Obligations.ResetIsBootOfTheDefaults : Prop :=
  boot Config.default [] [] = .next State.reset ∧ State.reset.pc = 0x00400000#32 ∧
  State.reset.cfg.dmemBase = 0x10010000#32 ∧ State.reset.cfg.misalignedFetch = .fault ∧
  State.reset.cfg.illegalPolicy = .inert ∧ ∀ r, State.reset.reg r = 0#32

/-- `20_memory.md` R51, with both values of `MISALIGNED_FETCH` (R53): what the fetch port delivers at every
address. Below the base and misaligned it is the spec's decisions D6 and D5 (log 11, 18), and their order the model's
(log 5). -/
def Obligations.FetchPortDelivers : Prop :=
  ∀ (c : Config) (prog : List Word) (a : Word),
    (c.misalignedFetch = .fault → a.toNat % 4 ≠ 0 → imem c prog a = .error (.misalignedFetch a)) ∧
    (c.misalignedFetch = .truncate ∨ a.toNat % 4 = 0 →
      (a.toNat < c.imemBase.toNat → imem c prog a = .ok 0#32) ∧
      (c.imemBase.toNat ≤ a.toNat →
        (∀ h : (a.toNat - c.imemBase.toNat) / 4 < prog.length,
          imem c prog a = .ok prog[(a.toNat - c.imemBase.toNat) / 4]) ∧
        (prog.length ≤ (a.toNat - c.imemBase.toNat) / 4 → imem c prog a = .ok 0#32)))

/-- `withFetchWord` puts a word where the next Step fetches it, and leaves registers, data memory, latches and the
cycle count alone; how a program is placed is the model's convention (log 3). -/
def Obligations.WordPlacedIsFetchedNext : Prop :=
  ∀ (s : State) (w : Nat), fetch (s.withFetchWord 32 w) = .ok (BitVec.ofNat 32 w) ∧
    (s.withFetchWord 32 w).halted = false ∧ (s.withFetchWord 32 w).regs = s.regs ∧
    (s.withFetchWord 32 w).mem = s.mem ∧ (s.withFetchWord 32 w).cycles = s.cycles ∧
    (s.withFetchWord 32 w).fd = s.fd ∧ (s.withFetchWord 32 w).de = s.de ∧
    (s.withFetchWord 32 w).em = s.em ∧ (s.withFetchWord 32 w).mw = s.mw

/-! ### The Step -/

/-- A Step runs the decoded instruction: when the word at the pc decodes to `i`, the Step is `exec i` in the state
where Fetch and Decode have written their latches and the cycle is counted, everything else as it was (`40_datapath.md`
R111, R114 to R116, R138). -/
def Obligations.StepRunsTheDecodedInstruction : Prop :=
  ∀ (s : State) (w : Word) (i : Instr), s.halted = false → fetch s = .ok w → decode w = .ok i →
    step s = exec i (s.issue w) ∧
    (s.issue w).fd = some { instr := w, npc := s.pc + 4#32 } ∧
    (s.issue w).de = some {
      opcode := opcodeOf w, rs := rsOf w, rt := rtOf w, rd := rdOf w, shamt := shamtOf w, funct := functOf w,
      immZext := zext32 (immOf w), immSext := sext32 (immOf w), jaddr := targetOf w,
      rsVal := s.reg (rsOf w), rtVal := s.reg (rtOf w), npc := s.pc + 4#32 } ∧
    (s.issue w).cycles = s.cycles + 1 ∧
    (s.issue w).cfg = s.cfg ∧ (s.issue w).prog = s.prog ∧ (s.issue w).regs = s.regs ∧ (s.issue w).pc = s.pc ∧
    (s.issue w).halted = s.halted ∧ (s.issue w).mem = s.mem ∧ (s.issue w).em = s.em ∧ (s.issue w).mw = s.mw

/-- `40_datapath.md` R114 to R116, with Fetch's own outputs (R111): after a Step that was entered
running, `FD` holds the fetched word and `pc + 4`, and `DE` every field of the word, both extensions, the jump field,
the two registers as they were at the start of the Step, and the same next pc. -/
def Obligations.FetchAndDecodeFillTheirLatches : Prop :=
  ∀ (s t : State) (w : Word), s.halted = false → fetch s = .ok w → step s = .next t →
    t.fd = some { instr := w, npc := s.pc + 4#32 } ∧
    t.de = some {
      opcode := opcodeOf w, rs := rsOf w, rt := rtOf w, rd := rdOf w, shamt := shamtOf w, funct := functOf w,
      immZext := zext32 (immOf w), immSext := sext32 (immOf w), jaddr := targetOf w,
      rsVal := s.reg (rsOf w), rtVal := s.reg (rtOf w), npc := s.pc + 4#32 }

/-- `45_system.md` R245: under `ILLEGAL_POLICY = inert` a word of no row advances the pc and changes nothing else; `EM`
gets the defaults and the cycle is counted. The advance and the defaults are the spec's decision D7 (log 6). -/
def Obligations.InertWordOnlyAdvances : Prop :=
  ∀ (s : State) (w : Word), s.halted = false → fetch s = .ok w →
    (∀ row ∈ opcodeTable, w &&& row.mask ≠ row.pattern) → s.cfg.illegalPolicy = .inert →
    ∃ t, step s = .next t ∧ t.pc = s.pc + 4#32 ∧ SameRegs s t ∧ SameMem s t ∧ t.halted = false ∧
      t.cycles = s.cycles + 1 ∧ t.cfg = s.cfg ∧ t.prog = s.prog ∧
      t.em = some { aluResult := 0#32, storeData := 0#32, memRead := false, memWrite := false, regWrite := false,
                    dest := 0#5, branch := false, jump := false, target := 0#32 }

/-- `45_system.md` R246: under `ILLEGAL_POLICY = refuse`, the spec's own option (D19, log 18), such a word leaves the
Step with no next state. -/
def Obligations.UnlistedWordFaultsUnderRefuse : Prop :=
  ∀ (s : State) (w : Word), s.halted = false → fetch s = .ok w →
    (∀ row ∈ opcodeTable, w &&& row.mask ≠ row.pattern) → s.cfg.illegalPolicy = .refuse →
    step s = .fault (.unlisted w)

/-- `20_memory.md` R52: a fetch outside the image, below it or past its end, is no fault, and under
`MISALIGNED_FETCH = truncate` a misaligned one is none either (R53; D5, log 18): the Step changes no
register, cell or flag and the pc advances by 4. Below the image it is the spec's decision D6 (log 11). -/
def Obligations.OutOfRangeFetchIsANop : Prop :=
  ∀ s : State, s.halted = false → s.cfg.misalignedFetch = .truncate ∨ s.pc.toNat % 4 = 0 →
    s.pc.toNat < s.cfg.imemBase.toNat ∨ s.cfg.imemBase.toNat + 4 * s.prog.length ≤ s.pc.toNat →
    ∃ t, step s = .next t ∧ t.pc = s.pc + 4#32 ∧ SameRegs s t ∧ SameMem s t ∧ t.halted = false ∧
      t.cfg = s.cfg ∧ t.prog = s.prog

/-- `40_datapath.md` R136: a Step entered halted does nothing, and is not counted. -/
def Obligations.HaltedStepDoesNothing : Prop :=
  ∀ s : State, s.halted = true → step s = .next s

/-- `40_datapath.md` R125, `60_exceptions.md` R265: a Step leaves the machine halted exactly when it was halted before
or the Step's word is a syscall and register 2 holds 10; nothing clears the flag, and boot starts running. That all 32
bits are compared is the spec's decision D21 (log 14), that only a new reset leaves the halt its decision
D14 (log 20). -/
def Obligations.OnlyTheHaltingSyscallHalts : Prop :=
  (∀ s t : State, step s = .next t →
    (t.halted = true ↔ s.halted = true ∨
      ∃ w, fetch s = .ok w ∧ w &&& 0xFC00003F#32 = 0x0000000C#32 ∧ s.reg 2#5 = 10#32)) ∧
  ∀ (c : Config) (prog data : List Word) (s : State), boot c prog data = .next s → s.halted = false

/-- `60_exceptions.md` R273: the two faults and exactly when each occurs; with `ILLEGAL_POLICY = inert` only the first
can; a Step never refuses; a run that reaches a fault ends with it, and not as halted. The two faults are the spec's
decisions D5 and D19 (log 18). -/
def Obligations.StepFaultsExactlyAsConfigured : Prop :=
  (∀ (s : State) (f : Fault), step s = .fault f ↔ s.halted = false ∧
    ((s.cfg.misalignedFetch = .fault ∧ s.pc.toNat % 4 ≠ 0 ∧ f = .misalignedFetch s.pc) ∨
      ∃ w, fetch s = .ok w ∧ (∀ row ∈ opcodeTable, w &&& row.mask ≠ row.pattern) ∧
        s.cfg.illegalPolicy = .refuse ∧ f = .unlisted w)) ∧
  (∀ (s : State) (w : Word), s.cfg.illegalPolicy = .inert → step s ≠ .fault (.unlisted w)) ∧
  (∀ (s : State) (r : Refusal), step s ≠ .refused r) ∧
  ∀ (s : State) (f : Fault) (fuel : Nat), step s = .fault f → run (fuel + 1) s = .fault f

/-- `40_datapath.md` R138: each Step entered running counts one cycle, the halting one included; a halted one none.
The count is the spec's decision D15 (log 17). -/
def Obligations.EachRunningStepCountsOneCycle : Prop :=
  ∀ s t : State, step s = .next t → t.cycles = if s.halted then s.cycles else s.cycles + 1

/-- `20_memory.md` R68, and the image part of R54: no Step changes the instruction image, so no store is
ever seen by a later fetch; nor does any Step change the host inputs (`10_state.md` R36). -/
def Obligations.NoStepChangesTheImage : Prop :=
  ∀ s t : State, step s = .next t → t.prog = s.prog ∧ t.cfg = s.cfg ∧
    ∀ a, imem t.cfg t.prog a = imem s.cfg s.prog a

/-- `20_memory.md` R50, R71: no instruction reads the image as data. Two states that differ in the image alone are
taken by every instruction to states that differ in the image alone. -/
def Obligations.NoInstructionReadsTheImage : Prop :=
  ∀ (i : Instr) (s : State) (p : List Word),
    ∃ t, exec i s = .next t ∧ exec i { s with prog := p } = .next { t with prog := p }

/-- `20_memory.md` R53: from an aligned pc every instruction but jr leads to an aligned pc, and jr does when its
register holds a multiple of 4. -/
def Obligations.OnlyJrCanMisalignThePc : Prop :=
  ∀ (i : Instr) (s : State), s.pc.toNat % 4 = 0 →
    (∀ rs rt rd shamt, i = .jr rs rt rd shamt → (s.reg rs).toNat % 4 = 0) →
    ∃ t, exec i s = .next t ∧ t.pc.toNat % 4 = 0

/-- `30_encoding.md` R90: after a Step, a register that reads differently is the destination of the word that ran:
`rd` of one of the twelve R-type ALU instructions (functs by R96), `rt` of an I-type ALU instruction or lw, 31 of jal;
never register 0, and none after jr, syscall, j, beq, bne, sw or a word of no row (R97). The rd / rt split is the
spec's decision D8 (log 12). -/
def Obligations.OnlyTheDestinationRegisterChanges : Prop :=
  ∀ (s t : State) (w : Word) (r : RegNum), fetch s = .ok w → step s = .next t → t.reg r ≠ s.reg r →
    r ≠ 0#5 ∧
    ((opcodeOf w = 0#6 ∧ (functOf w).toNat ∈ [0, 2, 32, 33, 34, 35, 36, 37, 38, 39, 42, 43] ∧ r = rdOf w) ∨
      (8 ≤ (opcodeOf w).toNat ∧ (opcodeOf w).toNat ≤ 15 ∧ r = rtOf w) ∨
      (opcodeOf w = 35#6 ∧ r = rtOf w) ∨ (opcodeOf w = 3#6 ∧ r = 31#5))

/-- `20_memory.md` R57, `44_load_store.md` R222: after a Step, a cell that reads differently is the one at the
effective address of a sw, and it reads `x[rt]`. -/
def Obligations.OnlySwChangesTheDataMemory : Prop :=
  ∀ (s t : State) (w a : Word), fetch s = .ok w → step s = .next t → t.dmem a ≠ s.dmem a →
    opcodeOf w = 43#6 ∧ a = s.reg (rsOf w) + sext32 (immOf w) ∧ t.dmem a = s.reg (rtOf w)

/-- `20_memory.md` R65: a lw after a sw reads the stored word where the two effective addresses agree, and the cell
as it was before the sw where they do not (cells never overlap, R55). -/
def Obligations.LoadAfterStoreReadsTheStoredWord : Prop :=
  ∀ (s : State) (rs rt rs' rt' : RegNum) (imm imm' : BitVec 16), rt' ≠ 0#5 →
    ∃ t u, exec (.sw rs rt imm) s = .next t ∧ exec (.lw rs' rt' imm') t = .next u ∧
      u.reg rt' = if s.reg rs' + sext32 imm' = s.reg rs + sext32 imm then s.reg rt
        else s.dmem (s.reg rs' + sext32 imm')

/-- `42_control_transfer.md` R188: a call by jal and a return by `jr $31` lead back to the instruction after the jal,
whatever ran between, if register 31 holds the link again. -/
def Obligations.CallThenReturnGoesBack : Prop :=
  ∀ (s : State) (target : BitVec 26) (rt rd : RegNum) (shamt : BitVec 5),
    ∃ t, exec (.jal target) s = .next t ∧
      ∀ u : State, u.reg 31#5 = t.reg 31#5 → ∃ v, exec (.jr 31#5 rt rd shamt) u = .next v ∧ v.pc = s.pc + 4#32

/-! ### Run -/

/-- `40_datapath.md` R139: Run repeats Step until `halted`; it ends in the Step that halts, with that Step counted, and
a fault ends it with that fault. The count is the spec's decision D15 (log 17), the fuel its decision D20 (log 7). -/
def Obligations.RunEndsInTheHaltingStep : Prop :=
  (∀ (fuel : Nat) (s : State), s.halted = true → run fuel s = .halted s.cycles s) ∧
  (∀ (fuel : Nat) (s t : State), s.halted = false → step s = .next t → run (fuel + 1) s = run fuel t) ∧
  (∀ (fuel : Nat) (s t : State), s.halted = false → step s = .next t → t.halted = true →
    run (fuel + 1) s = .halted (s.cycles + 1) t) ∧
  ∀ (fuel : Nat) (s : State) (f : Fault), step s = .fault f → run (fuel + 1) s = .fault f

/-- `40_datapath.md` R140: fuel only bounds a run. A run that halts or faults does so alike under more fuel. -/
def Obligations.MoreFuelChangesNoFinishedRun : Prop :=
  ∀ (fuel more : Nat) (s : State),
    (∀ c t, run fuel s = .halted c t → run (fuel + more) s = .halted c t) ∧
    ∀ f, run fuel s = .fault f → run (fuel + more) s = .fault f

/-- `70_reset_and_hazards.md` R301: the cycle count of a run that halts is the number of Steps it takes: the run is
still going after any smaller number of Steps, and ended after exactly that many. -/
def Obligations.RunCountsItsSteps : Prop :=
  ∀ (fuel : Nat) (s t : State) (c : Nat), run fuel s = .halted c t →
    t.halted = true ∧ c = t.cycles ∧ s.cycles ≤ c ∧ c - s.cycles ≤ fuel ∧
    run (c - s.cycles) s = .halted c t ∧ ∀ n < c - s.cycles, ∃ u, run n s = .outOfFuel u

/-- `60_exceptions.md` R273, the other way round: with `MISALIGNED_FETCH = truncate` and `ILLEGAL_POLICY = inert` no run
faults, from any state. -/
def Obligations.TruncatingInertMachineNeverFaults : Prop :=
  ∀ s : State, faultFree s.cfg = true → NeverFaults s

/-- `40_datapath.md` R141: the snapshot lists exactly the non-zero cells, all 32 registers in order, and the window the
five cells from the data base on. -/
def Obligations.SnapshotShowsTheState : Prop :=
  ∀ s : State, s.inv = true →
    (∀ (a v : Word), (a.toNat, v) ∈ (snapshot s).mem ↔ s.dmem a = v ∧ v ≠ 0#32) ∧
    (∀ r : RegNum, (snapshot s).regs[r.toNat]? = some (s.reg r)) ∧
    ∀ k < 5, (dataWindow s)[k]? = some (s.dmem (s.cfg.dmemBase + BitVec.ofNat 32 (4 * k)))

/-! ### Invariants and refinement -/

/-- Two canonical memories with the same contents are the same list. -/
def Obligations.CanonicalMemoriesAreEqualByContents : Prop :=
  ∀ m m' : Memory, Memory.wf m = true → Memory.wf m' = true →
    (∀ a : Word, Memory.read m a = Memory.read m' a) → m = m'

/-- The reset state satisfies the invariant. -/
def Obligations.InvariantHoldsAtReset : Prop := State.reset.inv = true

/-- Every state that boot leaves satisfies the invariant. -/
def Obligations.InvariantHoldsAfterBoot : Prop :=
  ∀ (c : Config) (prog data : List Word) (s : State), boot c prog data = .next s → s.inv = true

/-- Every Step keeps the invariant: the image keeps its place in the address space (`10_state.md` R37), memory its
canonical form, the stored register 0 its zero (R21), the latches one instruction's values (`40_datapath.md` R116,
R128, R132, R135), and a halted machine stands after its halting syscall (`60_exceptions.md` R264). -/
def Obligations.EveryStepKeepsTheInvariant : Prop :=
  ∀ s t : State, s.inv = true → step s = .next t → t.inv = true

/-- The Step that runs the decoded instruction's own meaning is the Step of the five stages over the latches
(`40_datapath.md` R142), in every state: the same next state, latches included, or the same fault. -/
def Obligations.StepIsTheFiveStageDatapath : Prop :=
  ∀ s : State, step s = datapathStep s
end

