-- ==== Sys2Proof/Laws/Decode.lean ====
section
/-! SUPPORT. Words as numbers: what each field of a word is (`30_encoding.md` R81) and what each format's word is
(R80), so that a fact about decoding becomes a fact of arithmetic. -/

namespace Sys2Proof

/-- A concatenation as a number. -/
theorem toNat_cat {a b : Nat} (x : BitVec a) (y : BitVec b) : (x ++ y).toNat = x.toNat * 2 ^ b + y.toNat := by
  rw [BitVec.toNat_append, Nat.shiftLeft_eq, Nat.mul_comm, Nat.two_pow_add_eq_or_of_lt y.isLt]

/-! ### Fields of a word -/

theorem opcodeOf_toNat (w : Word) : (opcodeOf w).toNat = w.toNat / 2 ^ 26 % 2 ^ 6 := by
  simp [opcodeOf, Nat.shiftRight_eq_div_pow]
theorem rsOf_toNat (w : Word) : (rsOf w).toNat = w.toNat / 2 ^ 21 % 2 ^ 5 := by
  simp [rsOf, Nat.shiftRight_eq_div_pow]
theorem rtOf_toNat (w : Word) : (rtOf w).toNat = w.toNat / 2 ^ 16 % 2 ^ 5 := by
  simp [rtOf, Nat.shiftRight_eq_div_pow]
theorem rdOf_toNat (w : Word) : (rdOf w).toNat = w.toNat / 2 ^ 11 % 2 ^ 5 := by
  simp [rdOf, Nat.shiftRight_eq_div_pow]
theorem shamtOf_toNat (w : Word) : (shamtOf w).toNat = w.toNat / 2 ^ 6 % 2 ^ 5 := by
  simp [shamtOf, Nat.shiftRight_eq_div_pow]
theorem functOf_toNat (w : Word) : (functOf w).toNat = w.toNat % 2 ^ 6 := by
  simp [functOf]
theorem immOf_toNat (w : Word) : (immOf w).toNat = w.toNat % 2 ^ 16 := by
  simp [immOf]
theorem targetOf_toNat (w : Word) : (targetOf w).toNat = w.toNat % 2 ^ 26 := by
  simp [targetOf]
theorem codeOf_toNat (w : Word) : (codeOf w).toNat = w.toNat / 2 ^ 6 % 2 ^ 20 := by
  simp [codeOf, Nat.shiftRight_eq_div_pow]

/-! ### Words of a format -/

theorem encodeR_toNat (rs rt rd : RegNum) (shamt : BitVec 5) (funct : BitVec 6) :
    (encodeR rs rt rd shamt funct).toNat =
      ((((0 * 2 ^ 5 + rs.toNat) * 2 ^ 5 + rt.toNat) * 2 ^ 5 + rd.toNat) * 2 ^ 5 + shamt.toNat) * 2 ^ 6
        + funct.toNat := by
  have h1 := toNat_cat 0#6 rs
  have h2 := toNat_cat (0#6 ++ rs) rt
  have h3 := toNat_cat (0#6 ++ rs ++ rt) rd
  have h4 := toNat_cat (0#6 ++ rs ++ rt ++ rd) shamt
  have h5 := toNat_cat (0#6 ++ rs ++ rt ++ rd ++ shamt) funct
  rw [h4, h3, h2, h1] at h5
  exact h5

theorem encodeI_toNat (opcode : BitVec 6) (rs rt : RegNum) (imm : BitVec 16) :
    (encodeI opcode rs rt imm).toNat =
      ((opcode.toNat * 2 ^ 5 + rs.toNat) * 2 ^ 5 + rt.toNat) * 2 ^ 16 + imm.toNat := by
  have h1 := toNat_cat opcode rs
  have h2 := toNat_cat (opcode ++ rs) rt
  have h3 := toNat_cat (opcode ++ rs ++ rt) imm
  rw [h2, h1] at h3
  exact h3

theorem encodeJ_toNat (opcode : BitVec 6) (target : BitVec 26) :
    (encodeJ opcode target).toNat = opcode.toNat * 2 ^ 26 + target.toNat :=
  toNat_cat opcode target

theorem encode_syscall_toNat (code : BitVec 20) :
    (encode (.syscall code)).toNat = (0 * 2 ^ 20 + code.toNat) * 2 ^ 6 + 12 := by
  have h1 := toNat_cat 0#6 code
  have h2 := toNat_cat (0#6 ++ code) 12#6
  rw [h1] at h2
  exact h2

/-! ### The masks of the opcode table -/

theorem maskFunct_bit (k : Nat) (hk : k < 32) : maskFunct.getLsbD k = decide (k < 6 ∨ 26 ≤ k) := by
  have h : ∀ k : Fin 32, maskFunct.getLsbD k = decide (k.val < 6 ∨ 26 ≤ k.val) := by decide
  exact h ⟨k, hk⟩

theorem maskOpcode_bit (k : Nat) (hk : k < 32) : maskOpcode.getLsbD k = decide (26 ≤ k) := by
  have h : ∀ k : Fin 32, maskOpcode.getLsbD k = decide (26 ≤ k.val) := by decide
  exact h ⟨k, hk⟩

theorem opcodeOf_bit (w : Word) (k : Nat) : (opcodeOf w).getLsbD k = (decide (k < 6) && w.getLsbD (26 + k)) := by
  simp [opcodeOf]

theorem functOf_bit (w : Word) (k : Nat) : (functOf w).getLsbD k = (decide (k < 6) && w.getLsbD k) := by
  simp [functOf]

/-- Two words agree under the opcode mask iff their opcodes agree (`30_encoding.md` R95). -/
theorem and_maskOpcode_eq_iff (w w' : Word) : w &&& maskOpcode = w' &&& maskOpcode ↔ opcodeOf w = opcodeOf w' := by
  constructor
  · intro h
    refine BitVec.eq_of_getLsbD_eq fun k hk => ?_
    have := congrArg (fun v : Word => v.getLsbD (26 + k)) h
    rw [opcodeOf_bit, opcodeOf_bit]
    simpa [hk, maskOpcode_bit (26 + k) (by omega)] using this
  · intro h
    refine BitVec.eq_of_getLsbD_eq fun k hk => ?_
    rw [BitVec.getLsbD_and, BitVec.getLsbD_and, maskOpcode_bit k hk]
    by_cases h26 : 26 ≤ k
    · have := congrArg (fun v : BitVec 6 => v.getLsbD (k - 26)) h
      simp only [opcodeOf_bit, show k - 26 < 6 by omega, Nat.add_sub_cancel' h26] at this
      simpa [h26] using this
    · simp [h26]

/-- Two words agree under the mask of opcode and funct iff both fields agree (`30_encoding.md` R95). -/
theorem and_maskFunct_eq_iff (w w' : Word) :
    w &&& maskFunct = w' &&& maskFunct ↔ opcodeOf w = opcodeOf w' ∧ functOf w = functOf w' := by
  constructor
  · intro h
    constructor <;> refine BitVec.eq_of_getLsbD_eq fun k hk => ?_
    · have := congrArg (fun v : Word => v.getLsbD (26 + k)) h
      rw [opcodeOf_bit, opcodeOf_bit]
      simpa [hk, maskFunct_bit (26 + k) (by omega)] using this
    · have := congrArg (fun v : Word => v.getLsbD k) h
      rw [functOf_bit, functOf_bit]
      simpa [hk, maskFunct_bit k (by omega)] using this
  · rintro ⟨ho, hf⟩
    refine BitVec.eq_of_getLsbD_eq fun k hk => ?_
    rw [BitVec.getLsbD_and, BitVec.getLsbD_and, maskFunct_bit k hk]
    by_cases h26 : 26 ≤ k
    · have := congrArg (fun v : BitVec 6 => v.getLsbD (k - 26)) ho
      simp only [opcodeOf_bit, show k - 26 < 6 by omega, Nat.add_sub_cancel' h26] at this
      simpa [h26] using this
    · by_cases h6 : k < 6
      · have := congrArg (fun v : BitVec 6 => v.getLsbD k) hf
        simp only [functOf_bit] at this
        simpa [h6] using this
      · simp [h26, h6]

/-! ### The fields of an encoded word, and the word of its own fields -/

theorem encodeR_fields (rs rt rd : RegNum) (shamt : BitVec 5) (funct : BitVec 6) :
    opcodeOf (encodeR rs rt rd shamt funct) = 0#6 ∧ rsOf (encodeR rs rt rd shamt funct) = rs ∧
    rtOf (encodeR rs rt rd shamt funct) = rt ∧ rdOf (encodeR rs rt rd shamt funct) = rd ∧
    shamtOf (encodeR rs rt rd shamt funct) = shamt ∧ functOf (encodeR rs rt rd shamt funct) = funct := by
  refine ⟨?_, ?_, ?_, ?_, ?_, ?_⟩ <;> apply BitVec.eq_of_toNat_eq <;>
    simp only [opcodeOf_toNat, rsOf_toNat, rtOf_toNat, rdOf_toNat, shamtOf_toNat, functOf_toNat, encodeR_toNat,
      BitVec.toNat_ofNat] <;> omega

theorem encodeI_fields (opcode : BitVec 6) (rs rt : RegNum) (imm : BitVec 16) :
    opcodeOf (encodeI opcode rs rt imm) = opcode ∧ rsOf (encodeI opcode rs rt imm) = rs ∧
    rtOf (encodeI opcode rs rt imm) = rt ∧ immOf (encodeI opcode rs rt imm) = imm := by
  refine ⟨?_, ?_, ?_, ?_⟩ <;> apply BitVec.eq_of_toNat_eq <;>
    simp only [opcodeOf_toNat, rsOf_toNat, rtOf_toNat, immOf_toNat, encodeI_toNat] <;> omega

theorem encodeJ_fields (opcode : BitVec 6) (target : BitVec 26) :
    opcodeOf (encodeJ opcode target) = opcode ∧ targetOf (encodeJ opcode target) = target := by
  refine ⟨?_, ?_⟩ <;> apply BitVec.eq_of_toNat_eq <;>
    simp only [opcodeOf_toNat, targetOf_toNat, encodeJ_toNat] <;> omega

theorem encode_syscall_fields (code : BitVec 20) :
    opcodeOf (encode (.syscall code)) = 0#6 ∧ functOf (encode (.syscall code)) = 12#6 ∧
    codeOf (encode (.syscall code)) = code := by
  refine ⟨?_, ?_, ?_⟩ <;> apply BitVec.eq_of_toNat_eq <;>
    simp only [opcodeOf_toNat, functOf_toNat, codeOf_toNat, encode_syscall_toNat, BitVec.toNat_ofNat] <;> omega

theorem encodeR_of_fields {w : Word} (h : opcodeOf w = 0#6) :
    encodeR (rsOf w) (rtOf w) (rdOf w) (shamtOf w) (functOf w) = w := by
  have hw := w.isLt
  have h' : (opcodeOf w).toNat = 0 := by rw [h]; rfl
  rw [opcodeOf_toNat] at h'
  apply BitVec.eq_of_toNat_eq
  rw [encodeR_toNat, rsOf_toNat, rtOf_toNat, rdOf_toNat, shamtOf_toNat, functOf_toNat]
  omega

theorem encodeI_of_fields (w : Word) : encodeI (opcodeOf w) (rsOf w) (rtOf w) (immOf w) = w := by
  have hw := w.isLt
  apply BitVec.eq_of_toNat_eq
  rw [encodeI_toNat, opcodeOf_toNat, rsOf_toNat, rtOf_toNat, immOf_toNat]
  omega

theorem encodeJ_of_fields (w : Word) : encodeJ (opcodeOf w) (targetOf w) = w := by
  have hw := w.isLt
  apply BitVec.eq_of_toNat_eq
  rw [encodeJ_toNat, opcodeOf_toNat, targetOf_toNat]
  omega

theorem encode_syscall_of_fields {w : Word} (h : opcodeOf w = 0#6) (hf : functOf w = 12#6) :
    encode (.syscall (codeOf w)) = w := by
  have hw := w.isLt
  have h' : (opcodeOf w).toNat = 0 := by rw [h]; rfl
  have hf' : (functOf w).toNat = 12 := by rw [hf]; rfl
  rw [opcodeOf_toNat] at h'
  rw [functOf_toNat] at hf'
  apply BitVec.eq_of_toNat_eq
  rw [encode_syscall_toNat, codeOf_toNat]
  omega

/-! ### The decoder through its lookup -/

theorem decode_ok_iff {w : Word} {i : Instr} :
    decode w = .ok i ↔ ∃ op, lookup (opcodeOf w) (functOf w) = some op ∧ instrOf op w = i := by
  unfold decode
  cases lookup (opcodeOf w) (functOf w) <;> simp

theorem decode_error_iff {w w' : Word} :
    decode w = .error (.unlisted w') ↔ lookup (opcodeOf w) (functOf w) = none ∧ w = w' := by
  unfold decode
  cases lookup (opcodeOf w) (functOf w) <;> simp

@[simp] theorem instrOf_op (op : Op) (w : Word) : (instrOf op w).op = op := by cases op <;> rfl

/-- Outside opcode 0 the funct field takes no part (`30_encoding.md` R88). -/
theorem lookup_of_opcode_ne {opcode : BitVec 6} (funct funct' : BitVec 6) (h : opcode ≠ 0#6) :
    lookup opcode funct = lookup opcode funct' := by
  unfold lookup
  split <;> first | rfl | (rename_i h0; exact absurd (BitVec.eq_of_toNat_eq h0) h)

/-- The opcode a row is selected by (`30_encoding.md` R94). -/
def Op.opcodeBits (op : Op) : BitVec 6 :=
  match op with
  | .add | .addu | .sub | .subu | .and | .or | .xor | .nor | .slt | .sltu | .sll | .srl | .jr | .syscall => 0#6
  | .j => 2#6 | .jal => 3#6 | .beq => 4#6 | .bne => 5#6 | .addi => 8#6 | .addiu => 9#6 | .slti => 10#6
  | .sltiu => 11#6 | .andi => 12#6 | .ori => 13#6 | .xori => 14#6 | .lui => 15#6 | .lw => 35#6 | .sw => 43#6

/-- The funct a row of opcode 0 is selected by (`30_encoding.md` R96). -/
def Op.functBits (op : Op) : BitVec 6 :=
  match op with
  | .add => 32#6 | .addu => 33#6 | .sub => 34#6 | .subu => 35#6 | .and => 36#6 | .or => 37#6 | .xor => 38#6
  | .nor => 39#6 | .slt => 42#6 | .sltu => 43#6 | .sll => 0#6 | .srl => 2#6 | .jr => 8#6 | .syscall => 12#6
  | .j | .jal | .beq | .bne | .addi | .addiu | .slti | .sltiu | .andi | .ori | .xori | .lui | .lw | .sw => 0#6

/-- What a successful lookup says of the two fields. -/
theorem bits_of_lookup {opcode funct : BitVec 6} {op : Op} (h : lookup opcode funct = some op) :
    opcode = op.opcodeBits ∧ (opcode = 0#6 → funct = op.functBits) := by
  by_cases h0 : opcode = 0#6
  · subst h0
    have hall : ∀ f : BitVec 6, ∀ o ∈ lookup 0#6 f, 0#6 = o.opcodeBits ∧ f = o.functBits := by decide
    exact ⟨(hall funct op h).1, fun _ => (hall funct op h).2⟩
  · rw [lookup_of_opcode_ne funct 0#6 h0] at h
    have hall : ∀ o : BitVec 6, o ≠ 0#6 → ∀ r ∈ lookup o 0#6, o = r.opcodeBits := by decide
    exact ⟨hall opcode h0 op h, fun h' => absurd h' h0⟩

end Sys2Proof
end

