-- ==== Sys2Proof/Laws/Memory.lean ====
section
/-! SUPPORT. The laws of the data memory: read after write, writes elsewhere, and the canonical form, which every
memory operation keeps and in which equal contents are equal lists. -/

namespace Sys2Proof.Machine

theorem Memory.lookup_erase (m : Memory) (k j : Nat) :
    Memory.lookup (Memory.erase m k) j = if j = k then Memory.unlisted else Memory.lookup m j := by
  induction m with
  | nil => simp [Memory.erase, Memory.lookup]
  | cons e rest ih =>
    obtain ⟨k', v⟩ := e
    simp only [Memory.erase, Memory.lookup]
    split <;> simp only [Memory.lookup, ih] <;> grind

theorem Memory.lookup_insert (m : Memory) (k : Nat) (v : Word) (j : Nat) :
    Memory.lookup (Memory.insert m k v) j = if j = k then v else Memory.lookup m j := by
  induction m with
  | nil => simp only [Memory.insert, Memory.lookup]; grind
  | cons e rest ih =>
    obtain ⟨k', v'⟩ := e
    simp only [Memory.insert]
    split
    · simp only [Memory.lookup]; grind
    · split <;> simp only [Memory.lookup, ih] <;> grind

/-- A read after a write (`20_memory.md` R56, R57): the cell written reads the value, every other cell as before. -/
theorem Memory.read_write (m : Memory) (a v b : Word) :
    Memory.read (Memory.write m a v) b = if b = a then v else Memory.read m b := by
  unfold Memory.read Memory.write
  split
  · rename_i h; simp [Memory.lookup_erase, BitVec.toNat_inj, h]
  · simp [Memory.lookup_insert, BitVec.toNat_inj]

/-- A cell of the empty memory reads 0 (`10_state.md` R25). -/
@[simp] theorem Memory.read_nil (a : Word) : Memory.read [] a = 0#32 := rfl

/-! ### The canonical form -/

theorem Memory.wfFrom_cons {lo k : Nat} {v : Word} {rest : Memory} :
    Memory.wfFrom lo ((k, v) :: rest) = true ↔
      lo ≤ k ∧ k < 2 ^ 32 ∧ v ≠ Memory.unlisted ∧ Memory.wfFrom (k + 1) rest = true := by
  simp [Memory.wfFrom, and_assoc]

theorem Memory.wfFrom_mono {lo lo' : Nat} {m : Memory} (hle : lo' ≤ lo) (h : Memory.wfFrom lo m = true) :
    Memory.wfFrom lo' m = true := by
  cases m with
  | nil => rfl
  | cons e rest =>
    rw [Memory.wfFrom_cons] at h ⊢
    exact ⟨hle.trans h.1, h.2⟩

theorem Memory.wfFrom_erase {lo : Nat} {m : Memory} (k : Nat) (h : Memory.wfFrom lo m = true) :
    Memory.wfFrom lo (Memory.erase m k) = true := by
  induction m generalizing lo with
  | nil => rfl
  | cons e rest ih =>
    obtain ⟨k', v⟩ := e
    rw [Memory.wfFrom_cons] at h
    simp only [Memory.erase]
    split
    · exact ih (Memory.wfFrom_mono (by omega) h.2.2.2)
    · exact Memory.wfFrom_cons.mpr ⟨h.1, h.2.1, h.2.2.1, ih h.2.2.2⟩

theorem Memory.wfFrom_insert {lo : Nat} {m : Memory} {k : Nat} {v : Word} (hlo : lo ≤ k) (hk : k < 2 ^ 32)
    (hv : v ≠ Memory.unlisted) (h : Memory.wfFrom lo m = true) :
    Memory.wfFrom lo (Memory.insert m k v) = true := by
  induction m generalizing lo with
  | nil => exact Memory.wfFrom_cons.mpr ⟨hlo, hk, hv, rfl⟩
  | cons e rest ih =>
    obtain ⟨k', v'⟩ := e
    rw [Memory.wfFrom_cons] at h
    simp only [Memory.insert]
    split
    · exact Memory.wfFrom_cons.mpr ⟨hlo, hk, hv, Memory.wfFrom_cons.mpr ⟨by omega, h.2⟩⟩
    · split
      · rename_i h'; subst h'
        exact Memory.wfFrom_cons.mpr ⟨hlo, hk, hv, h.2.2.2⟩
      · exact Memory.wfFrom_cons.mpr ⟨h.1, h.2.1, h.2.2.1, ih (by omega) h.2.2.2⟩

/-- A write keeps the canonical form. -/
theorem Memory.wf_write {m : Memory} (a v : Word) (h : Memory.wf m = true) : Memory.wf (Memory.write m a v) = true := by
  unfold Memory.write
  split
  · exact Memory.wfFrom_erase _ h
  · exact Memory.wfFrom_insert (Nat.zero_le _) a.isLt ‹_› h

/-- The store of the Memory stage keeps the canonical form. -/
theorem storeTo_wf {m : Memory} (em : EMLatch) (h : Memory.wf m = true) : Memory.wf (storeTo em m) = true := by
  unfold storeTo
  split
  · exact Memory.wf_write _ _ h
  · exact h

/-- Loading a data image keeps the canonical form. -/
theorem loadImage_wf {m : Memory} (a : Word) (data : List Word) (h : Memory.wf m = true) :
    Memory.wf (loadImage m a data) = true := by
  induction data generalizing m a with
  | nil => exact h
  | cons v rest ih => exact ih _ (Memory.wf_write a v h)

/-- The memory of the reset state is canonical. -/
theorem reset_mem_wf : Memory.wf State.reset.mem = true := rfl

/-- In the canonical form every key below the bound is unlisted. -/
theorem Memory.lookup_of_wfFrom {lo : Nat} {m : Memory} (h : Memory.wfFrom lo m = true) {k : Nat} (hk : k < lo) :
    Memory.lookup m k = Memory.unlisted := by
  induction m generalizing lo with
  | nil => rfl
  | cons e rest ih =>
    obtain ⟨k', v⟩ := e
    rw [Memory.wfFrom_cons] at h
    have hne : k' ≠ k := by omega
    simpa [Memory.lookup, hne] using ih h.2.2.2 (by omega)

end Sys2Proof.Machine
end

