-- ==== Sys2Proof/Laws/State.lean ====
section
/-! SUPPORT. One lemma for each field and each named update of `State`, so that no proof unfolds a record update. -/

namespace Sys2Proof.Machine

section setReg
variable (s : State) (r : RegNum) (v : Word)

@[simp] theorem setReg_cfg : (s.setReg r v).cfg = s.cfg := by unfold State.setReg; split <;> rfl
@[simp] theorem setReg_prog : (s.setReg r v).prog = s.prog := by unfold State.setReg; split <;> rfl
@[simp] theorem setReg_pc : (s.setReg r v).pc = s.pc := by unfold State.setReg; split <;> rfl
@[simp] theorem setReg_halted : (s.setReg r v).halted = s.halted := by unfold State.setReg; split <;> rfl
@[simp] theorem setReg_mem : (s.setReg r v).mem = s.mem := by unfold State.setReg; split <;> rfl
@[simp] theorem setReg_fd : (s.setReg r v).fd = s.fd := by unfold State.setReg; split <;> rfl
@[simp] theorem setReg_de : (s.setReg r v).de = s.de := by unfold State.setReg; split <;> rfl
@[simp] theorem setReg_em : (s.setReg r v).em = s.em := by unfold State.setReg; split <;> rfl
@[simp] theorem setReg_mw : (s.setReg r v).mw = s.mw := by unfold State.setReg; split <;> rfl
@[simp] theorem setReg_cycles : (s.setReg r v).cycles = s.cycles := by unfold State.setReg; split <;> rfl

/-- A write to register 0 is no write (`10_state.md` R22). -/
@[simp] theorem setReg_zero : s.setReg 0#5 v = s := by simp [State.setReg]

/-- Register 0 reads 0 (`10_state.md` R21). -/
@[simp] theorem reg_zero : s.reg 0#5 = 0#32 := by simp [State.reg]

/-- A register read after a register write (`40_datapath.md` R117). -/
theorem setReg_reg (q : RegNum) : (s.setReg r v).reg q = if q = r ∧ r ≠ 0#5 then v else s.reg q := by
  unfold State.setReg State.reg
  by_cases hr : r = 0#5
  · simp [hr]
  · by_cases hq : q = r
    · simp [hq, hr]
    · have : ¬ r.toNat = q.toNat := fun h => hq (BitVec.eq_of_toNat_eq h.symm)
      simp [hq, hr, this]

/-- The stored slot 0 is never written. -/
@[simp] theorem setReg_slot0 : (s.setReg r v).regs[0] = s.regs[0] := by
  unfold State.setReg
  split
  · rfl
  · rename_i hr
    have : ¬ r.toNat = 0 := fun h => hr (BitVec.eq_of_toNat_eq (by simpa using h))
    simp [this]

end setReg

section issue
variable (s : State) (w : Word)

@[simp] theorem issue_cfg : (s.issue w).cfg = s.cfg := rfl
@[simp] theorem issue_prog : (s.issue w).prog = s.prog := rfl
@[simp] theorem issue_regs : (s.issue w).regs = s.regs := rfl
@[simp] theorem issue_pc : (s.issue w).pc = s.pc := rfl
@[simp] theorem issue_npc : (s.issue w).npc = s.npc := rfl
@[simp] theorem issue_halted : (s.issue w).halted = s.halted := rfl
@[simp] theorem issue_mem : (s.issue w).mem = s.mem := rfl
@[simp] theorem issue_fd : (s.issue w).fd = some { instr := w, npc := s.npc } := rfl
@[simp] theorem issue_de : (s.issue w).de = some (deOf s w s.npc) := rfl
@[simp] theorem issue_em : (s.issue w).em = s.em := rfl
@[simp] theorem issue_mw : (s.issue w).mw = s.mw := rfl
@[simp] theorem issue_cycles : (s.issue w).cycles = s.cycles + 1 := rfl
@[simp] theorem issue_reg (r : RegNum) : (s.issue w).reg r = s.reg r := rfl
@[simp] theorem issue_dmem (a : Word) : (s.issue w).dmem a = s.dmem a := rfl

end issue

section haltIf
variable (s : State) (b : Bool)

@[simp] theorem haltIf_cfg : (s.haltIf b).cfg = s.cfg := rfl
@[simp] theorem haltIf_prog : (s.haltIf b).prog = s.prog := rfl
@[simp] theorem haltIf_regs : (s.haltIf b).regs = s.regs := rfl
@[simp] theorem haltIf_pc : (s.haltIf b).pc = s.pc := rfl
@[simp] theorem haltIf_npc : (s.haltIf b).npc = s.npc := rfl
@[simp] theorem haltIf_halted : (s.haltIf b).halted = (s.halted || b) := rfl
@[simp] theorem haltIf_mem : (s.haltIf b).mem = s.mem := rfl
@[simp] theorem haltIf_fd : (s.haltIf b).fd = s.fd := rfl
@[simp] theorem haltIf_de : (s.haltIf b).de = s.de := rfl
@[simp] theorem haltIf_em : (s.haltIf b).em = s.em := rfl
@[simp] theorem haltIf_mw : (s.haltIf b).mw = s.mw := rfl
@[simp] theorem haltIf_cycles : (s.haltIf b).cycles = s.cycles := rfl
@[simp] theorem haltIf_reg (r : RegNum) : (s.haltIf b).reg r = s.reg r := rfl

end haltIf

section memoryStage
variable (s : State) (em : EMLatch) (seq : Word)

@[simp] theorem memoryStage_cfg : (s.memoryStage em seq).cfg = s.cfg := rfl
@[simp] theorem memoryStage_prog : (s.memoryStage em seq).prog = s.prog := rfl
@[simp] theorem memoryStage_regs : (s.memoryStage em seq).regs = s.regs := rfl
@[simp] theorem memoryStage_pc : (s.memoryStage em seq).pc = pcNext em seq := rfl
@[simp] theorem memoryStage_halted : (s.memoryStage em seq).halted = s.halted := rfl
@[simp] theorem memoryStage_mem : (s.memoryStage em seq).mem = storeTo em s.mem := rfl
@[simp] theorem memoryStage_fd : (s.memoryStage em seq).fd = s.fd := rfl
@[simp] theorem memoryStage_de : (s.memoryStage em seq).de = s.de := rfl
@[simp] theorem memoryStage_em : (s.memoryStage em seq).em = some em := rfl
@[simp] theorem memoryStage_mw : (s.memoryStage em seq).mw = some (mwOf em (loadData em s.mem)) := rfl
@[simp] theorem memoryStage_cycles : (s.memoryStage em seq).cycles = s.cycles := rfl
@[simp] theorem memoryStage_reg (r : RegNum) : (s.memoryStage em seq).reg r = s.reg r := rfl

end memoryStage

section writeBack
variable (s : State) (mw : MWLatch)

@[simp] theorem writeBack_cfg : (s.writeBack mw).cfg = s.cfg := by unfold State.writeBack; split <;> simp
@[simp] theorem writeBack_prog : (s.writeBack mw).prog = s.prog := by unfold State.writeBack; split <;> simp
@[simp] theorem writeBack_pc : (s.writeBack mw).pc = s.pc := by unfold State.writeBack; split <;> simp
@[simp] theorem writeBack_halted : (s.writeBack mw).halted = s.halted := by unfold State.writeBack; split <;> simp
@[simp] theorem writeBack_mem : (s.writeBack mw).mem = s.mem := by unfold State.writeBack; split <;> simp
@[simp] theorem writeBack_fd : (s.writeBack mw).fd = s.fd := by unfold State.writeBack; split <;> simp
@[simp] theorem writeBack_de : (s.writeBack mw).de = s.de := by unfold State.writeBack; split <;> simp
@[simp] theorem writeBack_em : (s.writeBack mw).em = s.em := by unfold State.writeBack; split <;> simp
@[simp] theorem writeBack_mw : (s.writeBack mw).mw = s.mw := by unfold State.writeBack; split <;> simp
@[simp] theorem writeBack_cycles : (s.writeBack mw).cycles = s.cycles := by unfold State.writeBack; split <;> simp
@[simp] theorem writeBack_slot0 : (s.writeBack mw).regs[0] = s.regs[0] := by unfold State.writeBack; split <;> simp

/-- WriteBack changes one register at most (`40_datapath.md` R133, R134). -/
theorem writeBack_reg (q : RegNum) :
    (s.writeBack mw).reg q = if mw.regWrite = true ∧ q = mw.dest ∧ mw.dest ≠ 0#5 then mw.value else s.reg q := by
  unfold State.writeBack
  split
  · rename_i h; simp [h, setReg_reg]
  · rename_i h; simp [h]

end writeBack

end Sys2Proof.Machine
end

