-- ==== Sys2Proof/Laws/Ops.lean ====
section
/-! SUPPORT. One lemma for each thing the shared completion of a Step can do (`State.retire`, `aluToReg`,
`branchIf`), cited in place of unfolding them. -/

namespace Sys2Proof.Machine

section retire
variable (s : State) (em : EMLatch)

@[simp] theorem retire_cfg : (s.retire em).cfg = s.cfg := by simp [State.retire]
@[simp] theorem retire_prog : (s.retire em).prog = s.prog := by simp [State.retire]
@[simp] theorem retire_pc : (s.retire em).pc = pcNext em s.npc := by simp [State.retire]
@[simp] theorem retire_halted : (s.retire em).halted = s.halted := by simp [State.retire]
@[simp] theorem retire_mem : (s.retire em).mem = storeTo em s.mem := by simp [State.retire]
@[simp] theorem retire_fd : (s.retire em).fd = s.fd := by simp [State.retire]
@[simp] theorem retire_de : (s.retire em).de = s.de := by simp [State.retire]
@[simp] theorem retire_em : (s.retire em).em = some em := by simp [State.retire]
@[simp] theorem retire_mw : (s.retire em).mw = some (mwOf em (loadData em s.mem)) := by simp [State.retire]
@[simp] theorem retire_cycles : (s.retire em).cycles = s.cycles := by simp [State.retire]
@[simp] theorem retire_slot0 : (s.retire em).regs[0] = s.regs[0] := by simp [State.retire]

/-- The registers after a Step: at most `em.dest` changes, and only when it is written and is not register 0
(`40_datapath.md` R133, R134). -/
theorem retire_reg (q : RegNum) :
    (s.retire em).reg q =
      if em.regWrite = true ∧ q = em.dest ∧ em.dest ≠ 0#5 then
        (if em.memRead then Memory.read s.mem em.aluResult else em.aluResult)
      else s.reg q := by
  by_cases h : em.memRead <;> simp [State.retire, writeBack_reg, mwOf, MWLatch.value, loadData, h]

/-- The data memory after a Step: at most the cell `em.aluResult` changes (`40_datapath.md` R127, R128). -/
theorem retire_dmem (b : Word) :
    (s.retire em).dmem b = if em.memWrite = true ∧ b = em.aluResult then em.storeData else s.dmem b := by
  by_cases h : em.memWrite <;> simp [State.dmem, storeTo, h, Memory.read_write]

end retire

/-- Everything an ALU instruction does: `x[dest] <- A op B; pc <- pc + 4` (`40_datapath.md` R121 to R123). -/
theorem aluToReg_spec (op : AluOp) (a b : Word) (dest : RegNum) (s : State) :
    ∃ t, aluToReg op a b dest s = .next t ∧
      (∀ q, t.reg q = if q = dest ∧ dest ≠ 0#5 then alu op a b else s.reg q) ∧ t.pc = s.pc + 4#32 ∧ t.mem = s.mem ∧
      t.halted = s.halted ∧ t.cfg = s.cfg ∧ t.prog = s.prog ∧ t.cycles = s.cycles ∧ t.fd = s.fd ∧ t.de = s.de ∧
      t.em = some (EMLatch.result dest (alu op a b)) := by
  refine ⟨_, rfl, fun q => ?_, ?_, ?_, ?_⟩
  · simp [retire_reg, EMLatch.result, EMLatch.idle]
  · simp [pcNext, EMLatch.result, EMLatch.idle, State.npc]
  · simp [storeTo, EMLatch.result, EMLatch.idle]
  · simp

/-- Everything a conditional branch does (`42_control_transfer.md` R184, R185). -/
theorem branchIf_spec (taken : Bool) (imm : BitVec 16) (s : State) :
    ∃ t, branchIf taken imm s = .next t ∧
      (∀ q, t.reg q = s.reg q) ∧
      t.pc = (if taken then s.pc + 4#32 + (sext32 imm <<< 2) else s.pc + 4#32) ∧ t.mem = s.mem ∧
      t.halted = s.halted ∧ t.cfg = s.cfg ∧ t.prog = s.prog ∧ t.cycles = s.cycles ∧ t.fd = s.fd ∧ t.de = s.de := by
  refine ⟨_, rfl, fun q => ?_, ?_, ?_, ?_⟩
  · simp [retire_reg, EMLatch.idle]
  · cases taken <;> simp [pcNext, EMLatch.idle, State.npc, branchTarget]
  · simp [storeTo, EMLatch.idle]
  · simp

end Sys2Proof.Machine
end

