-- ==== Sys2Proof/Laws/PerInstr.lean ====
section
/-! SUPPORT. A fact of the syntax, instruction by instruction: the word of an instruction lies in that instruction's
own row of the opcode table (`30_encoding.md` R95). -/

namespace Sys2Proof.Laws.RowPattern

/-- Some row of the table has this instruction's mnemonic, and the instruction's word matches it. -/
def Statement (i : Instr) : Prop := ∃ row ∈ opcodeTable, row.op = i.op ∧ encode i &&& row.mask = row.pattern

/-- A word matches an R-type row as soon as its opcode and funct are the row's. -/
theorem of_funct {i : Instr} {row : OpcodeRow} (hrow : row ∈ functRows) (hop : row.op = i.op)
    (ho : opcodeOf (encode i) = opcodeOf row.pattern) (hf : functOf (encode i) = functOf row.pattern) :
    Statement i := by
  have hself : ∀ r ∈ functRows, r.mask = maskFunct ∧ r.pattern &&& maskFunct = r.pattern := by decide
  refine ⟨row, List.mem_append_left _ hrow, hop, ?_⟩
  rw [(hself row hrow).1, (and_maskFunct_eq_iff _ _).mpr ⟨ho, hf⟩, (hself row hrow).2]

/-- A word matches any other row as soon as its opcode is the row's. -/
theorem of_opcode {i : Instr} {row : OpcodeRow} (hrow : row ∈ opcodeRows) (hop : row.op = i.op)
    (ho : opcodeOf (encode i) = opcodeOf row.pattern) : Statement i := by
  have hself : ∀ r ∈ opcodeRows, r.mask = maskOpcode ∧ r.pattern &&& maskOpcode = r.pattern := by decide
  refine ⟨row, List.mem_append_right _ hrow, hop, ?_⟩
  rw [(hself row hrow).1, (and_maskOpcode_eq_iff _ _).mpr ho, (hself row hrow).2]

/-- The R-type constructors' lemma: the row, its membership by computation, the two fields. -/
theorem of_encodeR {i : Instr} {rs rt rd : RegNum} {shamt : BitVec 5} {funct : BitVec 6} (row : OpcodeRow)
    (he : encode i = encodeR rs rt rd shamt funct) (hrow : row ∈ functRows) (hop : row.op = i.op)
    (ho : opcodeOf row.pattern = 0#6) (hf : functOf row.pattern = funct) : Statement i :=
  of_funct hrow hop (by rw [he, (encodeR_fields ..).1, ho])
    (by rw [he, (encodeR_fields rs rt rd shamt funct).2.2.2.2.2, hf])

/-- The I-type constructors' lemma. -/
theorem of_encodeI {i : Instr} {opcode : BitVec 6} {rs rt : RegNum} {imm : BitVec 16} (row : OpcodeRow)
    (he : encode i = encodeI opcode rs rt imm) (hrow : row ∈ opcodeRows) (hop : row.op = i.op)
    (ho : opcodeOf row.pattern = opcode) : Statement i :=
  of_opcode hrow hop (by rw [he, (encodeI_fields ..).1, ho])

theorem add (rs rt rd : RegNum) (shamt : BitVec 5) : Statement (.add rs rt rd shamt) :=
  of_encodeR ⟨.add, maskFunct, 0x00000020#32⟩ rfl (by decide) rfl (by decide) (by decide)
theorem addu (rs rt rd : RegNum) (shamt : BitVec 5) : Statement (.addu rs rt rd shamt) :=
  of_encodeR ⟨.addu, maskFunct, 0x00000021#32⟩ rfl (by decide) rfl (by decide) (by decide)
theorem sub (rs rt rd : RegNum) (shamt : BitVec 5) : Statement (.sub rs rt rd shamt) :=
  of_encodeR ⟨.sub, maskFunct, 0x00000022#32⟩ rfl (by decide) rfl (by decide) (by decide)
theorem subu (rs rt rd : RegNum) (shamt : BitVec 5) : Statement (.subu rs rt rd shamt) :=
  of_encodeR ⟨.subu, maskFunct, 0x00000023#32⟩ rfl (by decide) rfl (by decide) (by decide)
theorem and (rs rt rd : RegNum) (shamt : BitVec 5) : Statement (.and rs rt rd shamt) :=
  of_encodeR ⟨.and, maskFunct, 0x00000024#32⟩ rfl (by decide) rfl (by decide) (by decide)
theorem or (rs rt rd : RegNum) (shamt : BitVec 5) : Statement (.or rs rt rd shamt) :=
  of_encodeR ⟨.or, maskFunct, 0x00000025#32⟩ rfl (by decide) rfl (by decide) (by decide)
theorem xor (rs rt rd : RegNum) (shamt : BitVec 5) : Statement (.xor rs rt rd shamt) :=
  of_encodeR ⟨.xor, maskFunct, 0x00000026#32⟩ rfl (by decide) rfl (by decide) (by decide)
theorem nor (rs rt rd : RegNum) (shamt : BitVec 5) : Statement (.nor rs rt rd shamt) :=
  of_encodeR ⟨.nor, maskFunct, 0x00000027#32⟩ rfl (by decide) rfl (by decide) (by decide)
theorem slt (rs rt rd : RegNum) (shamt : BitVec 5) : Statement (.slt rs rt rd shamt) :=
  of_encodeR ⟨.slt, maskFunct, 0x0000002A#32⟩ rfl (by decide) rfl (by decide) (by decide)
theorem sltu (rs rt rd : RegNum) (shamt : BitVec 5) : Statement (.sltu rs rt rd shamt) :=
  of_encodeR ⟨.sltu, maskFunct, 0x0000002B#32⟩ rfl (by decide) rfl (by decide) (by decide)
theorem sll (rs rt rd : RegNum) (shamt : BitVec 5) : Statement (.sll rs rt rd shamt) :=
  of_encodeR ⟨.sll, maskFunct, 0x00000000#32⟩ rfl (by decide) rfl (by decide) (by decide)
theorem srl (rs rt rd : RegNum) (shamt : BitVec 5) : Statement (.srl rs rt rd shamt) :=
  of_encodeR ⟨.srl, maskFunct, 0x00000002#32⟩ rfl (by decide) rfl (by decide) (by decide)
theorem jr (rs rt rd : RegNum) (shamt : BitVec 5) : Statement (.jr rs rt rd shamt) :=
  of_encodeR ⟨.jr, maskFunct, 0x00000008#32⟩ rfl (by decide) rfl (by decide) (by decide)
theorem syscall (code : BitVec 20) : Statement (.syscall code) :=
  of_funct (row := ⟨.syscall, maskFunct, 0x0000000C#32⟩) (by decide) rfl
    ((encode_syscall_fields code).1.trans (by decide)) ((encode_syscall_fields code).2.1.trans (by decide))
theorem j (target : BitVec 26) : Statement (.j target) :=
  of_opcode (row := ⟨.j, maskOpcode, 0x08000000#32⟩) (by decide) rfl
    ((encodeJ_fields 2#6 target).1.trans (by decide))
theorem jal (target : BitVec 26) : Statement (.jal target) :=
  of_opcode (row := ⟨.jal, maskOpcode, 0x0C000000#32⟩) (by decide) rfl
    ((encodeJ_fields 3#6 target).1.trans (by decide))
theorem beq (rs rt : RegNum) (imm : BitVec 16) : Statement (.beq rs rt imm) :=
  of_encodeI ⟨.beq, maskOpcode, 0x10000000#32⟩ rfl (by decide) rfl (by decide)
theorem bne (rs rt : RegNum) (imm : BitVec 16) : Statement (.bne rs rt imm) :=
  of_encodeI ⟨.bne, maskOpcode, 0x14000000#32⟩ rfl (by decide) rfl (by decide)
theorem addi (rs rt : RegNum) (imm : BitVec 16) : Statement (.addi rs rt imm) :=
  of_encodeI ⟨.addi, maskOpcode, 0x20000000#32⟩ rfl (by decide) rfl (by decide)
theorem addiu (rs rt : RegNum) (imm : BitVec 16) : Statement (.addiu rs rt imm) :=
  of_encodeI ⟨.addiu, maskOpcode, 0x24000000#32⟩ rfl (by decide) rfl (by decide)
theorem slti (rs rt : RegNum) (imm : BitVec 16) : Statement (.slti rs rt imm) :=
  of_encodeI ⟨.slti, maskOpcode, 0x28000000#32⟩ rfl (by decide) rfl (by decide)
theorem sltiu (rs rt : RegNum) (imm : BitVec 16) : Statement (.sltiu rs rt imm) :=
  of_encodeI ⟨.sltiu, maskOpcode, 0x2C000000#32⟩ rfl (by decide) rfl (by decide)
theorem andi (rs rt : RegNum) (imm : BitVec 16) : Statement (.andi rs rt imm) :=
  of_encodeI ⟨.andi, maskOpcode, 0x30000000#32⟩ rfl (by decide) rfl (by decide)
theorem ori (rs rt : RegNum) (imm : BitVec 16) : Statement (.ori rs rt imm) :=
  of_encodeI ⟨.ori, maskOpcode, 0x34000000#32⟩ rfl (by decide) rfl (by decide)
theorem xori (rs rt : RegNum) (imm : BitVec 16) : Statement (.xori rs rt imm) :=
  of_encodeI ⟨.xori, maskOpcode, 0x38000000#32⟩ rfl (by decide) rfl (by decide)
theorem lui (rs rt : RegNum) (imm : BitVec 16) : Statement (.lui rs rt imm) :=
  of_encodeI ⟨.lui, maskOpcode, 0x3C000000#32⟩ rfl (by decide) rfl (by decide)
theorem lw (rs rt : RegNum) (imm : BitVec 16) : Statement (.lw rs rt imm) :=
  of_encodeI ⟨.lw, maskOpcode, 0x8C000000#32⟩ rfl (by decide) rfl (by decide)
theorem sw (rs rt : RegNum) (imm : BitVec 16) : Statement (.sw rs rt imm) :=
  of_encodeI ⟨.sw, maskOpcode, 0xAC000000#32⟩ rfl (by decide) rfl (by decide)

end Sys2Proof.Laws.RowPattern
end

