-- ==== Sys2Proof/Laws/Step.lean ====
section
/-! SUPPORT. What an instruction and a Step can do, said once: an invariant of the machine is proved from these, not
by unfolding `exec` or `step` again. -/

namespace Sys2Proof.Machine

@[simp] theorem haltIf_false (s : State) : s.haltIf false = s := by simp [State.haltIf]

/-- Every instruction completes: it retires one `EM`, after setting `halted` if it is a syscall that finds 10 in
register 2 (`40_datapath.md` R125). `EM` never asks for two data accesses (R128) or two transfers, and asks for a
store only in a sw, at its effective address. -/
theorem exec_cases (i : Instr) (s : State) :
    ∃ halts em, exec i s = .next ((s.haltIf halts).retire em) ∧
      (halts = true ↔ i.op = .syscall ∧ haltTest s = true) ∧
      (em.memRead && em.memWrite) = false ∧ (em.branch && em.jump) = false ∧
      (em.memWrite = true → ∃ rs rt imm, i = .sw rs rt imm ∧
        em.aluResult = effectiveAddress s rs imm ∧ em.storeData = s.reg rt) := by
  cases i <;> first
    | (refine ⟨haltTest s, _, rfl, ?_, rfl, rfl, ?_⟩ <;> simp [Instr.op, EMLatch.idle])
    | (refine ⟨false, _, (by simp [State.haltIf]; rfl), ?_, ?_, ?_, ?_⟩ <;>
        simp [Instr.op, EMLatch.idle, EMLatch.result])

/-- The four things a Step can do: nothing because it is entered halted (`40_datapath.md` R136); fault at the fetch
(R113); fault on an unlisted word (`45_system.md` R246); or retire one `EM` for the fetched word (R142), halting if
that word is a syscall that finds 10 in register 2. -/
theorem step_cases (s : State) :
    (s.halted = true ∧ step s = .next s) ∨
    (s.halted = false ∧ ∃ f, fetch s = .error f ∧ step s = .fault f) ∨
    (s.halted = false ∧ ∃ w, fetch s = .ok w ∧ lookup (opcodeOf w) (functOf w) = none ∧
      s.cfg.illegalPolicy = .refuse ∧ step s = .fault (.unlisted w)) ∨
    (s.halted = false ∧ ∃ w halts em, fetch s = .ok w ∧
      step s = .next (((s.issue w).haltIf halts).retire em) ∧
      (halts = true ↔ lookup (opcodeOf w) (functOf w) = some .syscall ∧ haltTest s = true) ∧
      (em.memRead && em.memWrite) = false ∧ (em.branch && em.jump) = false ∧
      (lookup (opcodeOf w) (functOf w) = none → s.cfg.illegalPolicy = .inert ∧ em = EMLatch.idle)) := by
  unfold step
  cases hh : s.halted
  · cases hf : fetch s with
    | error f => simp
    | ok w =>
      simp only [executeWord, decode]
      cases hl : lookup (opcodeOf w) (functOf w) with
      | none =>
        simp only [execUnlisted, issue_cfg]
        cases hp : s.cfg.illegalPolicy
        · exact .inr (.inr (.inr ⟨by simp, w, false, EMLatch.idle, rfl, by simp, by simp [hl], rfl, rfl, by simp⟩))
        · simp [hl]
      | some op =>
        obtain ⟨halts, em, he, hhalts, hmem, hjump, -⟩ := exec_cases (instrOf op w) (s.issue w)
        refine .inr (.inr (.inr ⟨by simp, w, halts, em, rfl, he, ?_, hmem, hjump, by simp [hl]⟩))
        simpa [hl, haltTest] using hhalts
  · simp

/-- What a Step that answers a next state did: the cases of `step_cases` that have one. -/
theorem step_next {s t : State} (h : step s = .next t) :
    (s.halted = true ∧ t = s) ∨
    (s.halted = false ∧ ∃ w halts em, fetch s = .ok w ∧ t = ((s.issue w).haltIf halts).retire em ∧
      (halts = true ↔ lookup (opcodeOf w) (functOf w) = some .syscall ∧ haltTest s = true) ∧
      (em.memRead && em.memWrite) = false ∧ (em.branch && em.jump) = false) := by
  rcases step_cases s with ⟨hh, hs⟩ | ⟨-, f, -, hs⟩ | ⟨-, w, -, -, -, hs⟩ | ⟨hh, w, halts, em, hf, hs, h1, h2, h3, -⟩
  all_goals rw [hs] at h; cases h
  · exact .inl ⟨hh, rfl⟩
  · exact .inr ⟨hh, w, halts, em, hf, rfl, h1, h2, h3⟩

end Sys2Proof.Machine
end

