-- ==== Sys2Proof/Tests/Slice0.lean ====
section
/-! SUPPORT. Tests of the model against the spec: words written out from the encodings of `30_encoding.md` R80, R81,
R95, R96, the vectors of `95_test_vectors.md` (each test names its own), the checks of `WellFormed.lean`, and for
every statement with hypotheses a state that meets them. -/

namespace Sys2Proof.Tests

open Sys2Proof.Machine

/-! ### The checks refuse ill-formed terms -/

theorem test_default_config_wf : Config.default.wf 3 5 = true := by decide
theorem test_unaligned_base_refused : ({ Config.default with imemBase := 0x00400002#32 } : Config).wf 0 0 = false := by decide
theorem test_wrapping_image_refused : ({ Config.default with imemBase := 0xFFFFFFFC#32 } : Config).wf 2 0 = false := by decide
theorem test_image_to_the_top_accepted : ({ Config.default with imemBase := 0xFFFFFFFC#32 } : Config).wf 1 0 = true := by decide
theorem test_wrapping_data_refused : ({ Config.default with dmemBase := 0xFFFFFFFD#32 } : Config).wf 0 1 = false := by decide
theorem test_too_much_data_refused :
    ({ Config.default with dmemBase := 0x00000000#32 } : Config).wf 0 (2 ^ 30 + 1) = false := by decide
theorem test_add_with_shamt_not_assembled : (Instr.add 8#5 9#5 10#5 1#5).assembled = false := by decide
theorem test_sll_with_rs_not_assembled : (Instr.sll 1#5 9#5 10#5 4#5).assembled = false := by decide
theorem test_jr_with_rt_not_assembled : (Instr.jr 31#5 1#5 0#5 0#5).assembled = false := by decide
theorem test_jr_with_rd_not_assembled : (Instr.jr 31#5 0#5 1#5 0#5).assembled = false := by decide
theorem test_jr_with_shamt_not_assembled : (Instr.jr 31#5 0#5 0#5 1#5).assembled = false := by decide
theorem test_syscall_with_code_not_assembled : (Instr.syscall 0xABCD#20).assembled = false := by decide
theorem test_lui_with_rs_not_assembled : (Instr.lui 8#5 9#5 0x8000#16).assembled = false := by decide
theorem test_add_assembled : (Instr.add 8#5 9#5 10#5 0#5).assembled = true := by decide
theorem test_unsorted_memory_not_canonical : Memory.wf [(8, 1#32), (4, 1#32)] = false := by decide
theorem test_listed_zero_not_canonical : Memory.wf [(4, 0#32)] = false := by decide
theorem test_address_past_the_top_not_canonical : Memory.wf [(2 ^ 32, 1#32)] = false := by decide

/-! ### Every constructor's decoding, its word written out field by field (`30_encoding.md` R80, R81, R95)

The fields are opcode, rs, rt, rd, shamt, funct, or opcode, rs, rt, imm, or opcode, target. -/

theorem test_decode_add : decodeTableWord 32 0b000000_10011_00110_11100_01011_100000 = some (.add 19#5 6#5 28#5 11#5) := by decide
theorem test_decode_addu : decodeTableWord 32 0b000000_10011_00110_11100_01011_100001 = some (.addu 19#5 6#5 28#5 11#5) := by decide
theorem test_decode_sub : decodeTableWord 32 0b000000_10011_00110_11100_01011_100010 = some (.sub 19#5 6#5 28#5 11#5) := by decide
theorem test_decode_subu : decodeTableWord 32 0b000000_10011_00110_11100_01011_100011 = some (.subu 19#5 6#5 28#5 11#5) := by decide
theorem test_decode_and : decodeTableWord 32 0b000000_10011_00110_11100_01011_100100 = some (.and 19#5 6#5 28#5 11#5) := by decide
theorem test_decode_or : decodeTableWord 32 0b000000_10011_00110_11100_01011_100101 = some (.or 19#5 6#5 28#5 11#5) := by decide
theorem test_decode_xor : decodeTableWord 32 0b000000_10011_00110_11100_01011_100110 = some (.xor 19#5 6#5 28#5 11#5) := by decide
theorem test_decode_nor : decodeTableWord 32 0b000000_10011_00110_11100_01011_100111 = some (.nor 19#5 6#5 28#5 11#5) := by decide
theorem test_decode_slt : decodeTableWord 32 0b000000_10011_00110_11100_01011_101010 = some (.slt 19#5 6#5 28#5 11#5) := by decide
theorem test_decode_sltu : decodeTableWord 32 0b000000_10011_00110_11100_01011_101011 = some (.sltu 19#5 6#5 28#5 11#5) := by decide
theorem test_decode_sll : decodeTableWord 32 0b000000_10011_00110_11100_01011_000000 = some (.sll 19#5 6#5 28#5 11#5) := by decide
theorem test_decode_srl : decodeTableWord 32 0b000000_10011_00110_11100_01011_000010 = some (.srl 19#5 6#5 28#5 11#5) := by decide
theorem test_decode_jr : decodeTableWord 32 0b000000_10011_00110_11100_01011_001000 = some (.jr 19#5 6#5 28#5 11#5) := by decide
theorem test_decode_syscall : decodeTableWord 32 0b000000_10011010101111001101_001100 = some (.syscall 0x9ABCD#20) := by decide
theorem test_decode_j : decodeTableWord 32 0b000010_10001101000101011001111000 = some (.j 0x2345678#26) := by decide
theorem test_decode_jal : decodeTableWord 32 0b000011_10001101000101011001111000 = some (.jal 0x2345678#26) := by decide
theorem test_decode_beq : decodeTableWord 32 0b000100_10011_00110_1001101010111100 = some (.beq 19#5 6#5 0x9ABC#16) := by decide
theorem test_decode_bne : decodeTableWord 32 0b000101_10011_00110_1001101010111100 = some (.bne 19#5 6#5 0x9ABC#16) := by decide
theorem test_decode_addi : decodeTableWord 32 0b001000_10011_00110_1001101010111100 = some (.addi 19#5 6#5 0x9ABC#16) := by decide
theorem test_decode_addiu : decodeTableWord 32 0b001001_10011_00110_1001101010111100 = some (.addiu 19#5 6#5 0x9ABC#16) := by decide
theorem test_decode_slti : decodeTableWord 32 0b001010_10011_00110_1001101010111100 = some (.slti 19#5 6#5 0x9ABC#16) := by decide
theorem test_decode_sltiu : decodeTableWord 32 0b001011_10011_00110_1001101010111100 = some (.sltiu 19#5 6#5 0x9ABC#16) := by decide
theorem test_decode_andi : decodeTableWord 32 0b001100_10011_00110_1001101010111100 = some (.andi 19#5 6#5 0x9ABC#16) := by decide
theorem test_decode_ori : decodeTableWord 32 0b001101_10011_00110_1001101010111100 = some (.ori 19#5 6#5 0x9ABC#16) := by decide
theorem test_decode_xori : decodeTableWord 32 0b001110_10011_00110_1001101010111100 = some (.xori 19#5 6#5 0x9ABC#16) := by decide
theorem test_decode_lui : decodeTableWord 32 0b001111_10011_00110_1001101010111100 = some (.lui 19#5 6#5 0x9ABC#16) := by decide
theorem test_decode_lw : decodeTableWord 32 0b100011_10011_00110_1001101010111100 = some (.lw 19#5 6#5 0x9ABC#16) := by decide
theorem test_decode_sw : decodeTableWord 32 0b101011_10011_00110_1001101010111100 = some (.sw 19#5 6#5 0x9ABC#16) := by decide
theorem test_decode_unlisted_opcode : decodeTableWord 32 0x7C000000 = none := by decide
theorem test_decode_unlisted_funct : decodeTableWord 32 0x00000001 = none := by decide
theorem test_decode_jalr_unlisted : decodeTableWord 32 0x0100F809 = none := by decide

/-! ### One Step each, from the vectors of `95_test_vectors.md`

A vector runs with `IMEM_BASE = pc` and the one-word image of its word. -/

/-- The start state of a vector. -/
def start (pc word : Word) (regs : List (RegNum × Word)) (cells : List (Word × Word)) : State :=
  let s := { State.resetWith { Config.default with imemBase := pc } with prog := [word] }
  let s := regs.foldl (fun s p => s.setReg p.1 p.2) s
  { s with mem := cells.foldl (fun m p => Memory.write m p.1 p.2) [] }

/-- The end of a vector, as far as it is looked at: the pc, one register, one cell, and `halted`. -/
def ends (s : State) (pc : Word) (r : RegNum) (v : Word) (a c : Word) (halted : Bool) : Bool :=
  match step s with
  | .next t => t.pc == pc && t.reg r == v && t.dmem a == c && t.halted == halted && t.cycles == s.cycles + 1
  | .fault _ => false
  | .refused _ => false

/-- V-RALU-1 -/
theorem test_add_wraps :
    ends (start 0x00400000#32 0x01095020#32 [(8#5, 0xFFFFFFFF#32), (9#5, 0x00000002#32)] []) 0x00400004#32 10#5 0x00000001#32 0x00000000#32 0x00000000#32 false = true := by decide
/-- V-RALU-4 -/
theorem test_add_reads_old_value :
    ends (start 0x00400000#32 0x01084020#32 [(8#5, 0x00000003#32)] []) 0x00400004#32 8#5 0x00000006#32 0x00000000#32 0x00000000#32 false = true := by decide
/-- V-RALU-5 -/
theorem test_addu_writes_zero :
    ends (start 0x00400000#32 0x01095021#32 [(10#5, 0xAAAAAAAA#32), (8#5, 0x80000000#32), (9#5, 0x80000000#32)] []) 0x00400004#32 10#5 0x00000000#32 0x00000000#32 0x00000000#32 false = true := by decide
/-- V-RALU-6 -/
theorem test_sub_negative :
    ends (start 0x00400000#32 0x01095022#32 [(8#5, 0x00000005#32), (9#5, 0x00000007#32)] []) 0x00400004#32 10#5 0xFFFFFFFE#32 0x00000000#32 0x00000000#32 false = true := by decide
/-- V-RALU-7 -/
theorem test_sub_no_overflow_trap :
    ends (start 0x00400000#32 0x01095022#32 [(8#5, 0x80000000#32), (9#5, 0x00000001#32)] []) 0x00400004#32 10#5 0x7FFFFFFF#32 0x00000000#32 0x00000000#32 false = true := by decide
/-- V-RALU-9 -/
theorem test_subu_wraps :
    ends (start 0x00400000#32 0x01095023#32 [(9#5, 0x00000001#32)] []) 0x00400004#32 10#5 0xFFFFFFFF#32 0x00000000#32 0x00000000#32 false = true := by decide
/-- V-RALU-10 -/
theorem test_and_bits :
    ends (start 0x00400000#32 0x01095024#32 [(8#5, 0xF0F0F0F0#32), (9#5, 0xFF00FF00#32)] []) 0x00400004#32 10#5 0xF000F000#32 0x00000000#32 0x00000000#32 false = true := by decide
/-- V-RALU-11 -/
theorem test_or_bits :
    ends (start 0x00400000#32 0x01095025#32 [(8#5, 0xF0F0F0F0#32), (9#5, 0xFF00FF00#32)] []) 0x00400004#32 10#5 0xFFF0FFF0#32 0x00000000#32 0x00000000#32 false = true := by decide
/-- V-RALU-12 -/
theorem test_xor_bits :
    ends (start 0x00400000#32 0x01095026#32 [(8#5, 0xF0F0F0F0#32), (9#5, 0xFF00FF00#32)] []) 0x00400004#32 10#5 0x0FF00FF0#32 0x00000000#32 0x00000000#32 false = true := by decide
/-- V-RALU-14 -/
theorem test_nor_bits :
    ends (start 0x00400000#32 0x01095027#32 [(8#5, 0xF0F0F0F0#32), (9#5, 0xFF00FF00#32)] []) 0x00400004#32 10#5 0x000F000F#32 0x00000000#32 0x00000000#32 false = true := by decide
/-- V-RALU-15 -/
theorem test_nor_of_zeros :
    ends (start 0x00400000#32 0x00005027#32 [] []) 0x00400004#32 10#5 0xFFFFFFFF#32 0x00000000#32 0x00000000#32 false = true := by decide
/-- V-RALU-16 -/
theorem test_slt_negative_less :
    ends (start 0x00400000#32 0x0109502A#32 [(8#5, 0xFFFFFFFF#32), (9#5, 0x00000001#32)] []) 0x00400004#32 10#5 0x00000001#32 0x00000000#32 0x00000000#32 false = true := by decide
/-- V-RALU-17 -/
theorem test_slt_positive_not_less :
    ends (start 0x00400000#32 0x0109502A#32 [(10#5, 0xAAAAAAAA#32), (8#5, 0x00000001#32), (9#5, 0xFFFFFFFF#32)] []) 0x00400004#32 10#5 0x00000000#32 0x00000000#32 0x00000000#32 false = true := by decide
/-- V-RALU-20 -/
theorem test_sltu_greatest_not_less :
    ends (start 0x00400000#32 0x0109502B#32 [(10#5, 0xAAAAAAAA#32), (8#5, 0xFFFFFFFF#32), (9#5, 0x00000001#32)] []) 0x00400004#32 10#5 0x00000000#32 0x00000000#32 0x00000000#32 false = true := by decide
/-- V-RALU-21 -/
theorem test_sltu_less :
    ends (start 0x00400000#32 0x0109502B#32 [(8#5, 0x00000001#32), (9#5, 0xFFFFFFFF#32)] []) 0x00400004#32 10#5 0x00000001#32 0x00000000#32 0x00000000#32 false = true := by decide
/-- V-RALU-23 -/
theorem test_sll_drops_top_bits :
    ends (start 0x00400000#32 0x00095100#32 [(9#5, 0x87654321#32)] []) 0x00400004#32 10#5 0x76543210#32 0x00000000#32 0x00000000#32 false = true := by decide
/-- V-RALU-26 -/
theorem test_zero_word_writes_nothing :
    ends (start 0x00400000#32 0x00000000#32 [] []) 0x00400004#32 0#5 0x00000000#32 0x00000000#32 0x00000000#32 false = true := by decide
/-- V-RALU-28 -/
theorem test_srl_is_logical :
    ends (start 0x00400000#32 0x000957C2#32 [(9#5, 0x80000000#32)] []) 0x00400004#32 10#5 0x00000001#32 0x00000000#32 0x00000000#32 false = true := by decide
/-- V-IALU-1 -/
theorem test_addi_sign_extends :
    ends (start 0x00400000#32 0x21098000#32 [] []) 0x00400004#32 9#5 0xFFFF8000#32 0x00000000#32 0x00000000#32 false = true := by decide
/-- V-IALU-2 -/
theorem test_addi_no_overflow_trap :
    ends (start 0x00400000#32 0x21090001#32 [(8#5, 0x7FFFFFFF#32)] []) 0x00400004#32 9#5 0x80000000#32 0x00000000#32 0x00000000#32 false = true := by decide
/-- V-IALU-3 -/
theorem test_addiu_wraps_to_zero :
    ends (start 0x00400000#32 0x25090001#32 [(9#5, 0xAAAAAAAA#32), (8#5, 0xFFFFFFFF#32)] []) 0x00400004#32 9#5 0x00000000#32 0x00000000#32 0x00000000#32 false = true := by decide
/-- V-IALU-4 -/
theorem test_addiu_to_zero_register :
    ends (start 0x00400000#32 0x24000005#32 [] []) 0x00400004#32 0#5 0x00000000#32 0x00000000#32 0x00000000#32 false = true := by decide
/-- V-IALU-5 -/
theorem test_slti_negative :
    ends (start 0x00400000#32 0x2909FFFF#32 [(8#5, 0xFFFFFFFE#32)] []) 0x00400004#32 9#5 0x00000001#32 0x00000000#32 0x00000000#32 false = true := by decide
/-- V-IALU-6 -/
theorem test_slti_not_less :
    ends (start 0x00400000#32 0x2909FFFF#32 [(9#5, 0xAAAAAAAA#32)] []) 0x00400004#32 9#5 0x00000000#32 0x00000000#32 0x00000000#32 false = true := by decide
/-- V-IALU-9 -/
theorem test_sltiu_sign_extends :
    ends (start 0x00400000#32 0x2D09FFFF#32 [(8#5, 0x00010000#32)] []) 0x00400004#32 9#5 0x00000001#32 0x00000000#32 0x00000000#32 false = true := by decide
/-- V-IALU-10 -/
theorem test_sltiu_equal :
    ends (start 0x00400000#32 0x2D09FFFF#32 [(9#5, 0xAAAAAAAA#32), (8#5, 0xFFFFFFFF#32)] []) 0x00400004#32 9#5 0x00000000#32 0x00000000#32 0x00000000#32 false = true := by decide
/-- V-IALU-12 -/
theorem test_andi_zero_extends :
    ends (start 0x00400000#32 0x31098000#32 [(8#5, 0xFFFFFFFF#32)] []) 0x00400004#32 9#5 0x00008000#32 0x00000000#32 0x00000000#32 false = true := by decide
/-- V-IALU-13 -/
theorem test_ori_zero_extends :
    ends (start 0x00400000#32 0x35098000#32 [(8#5, 0x12340000#32)] []) 0x00400004#32 9#5 0x12348000#32 0x00000000#32 0x00000000#32 false = true := by decide
/-- V-IALU-14 -/
theorem test_xori_zero_extends :
    ends (start 0x00400000#32 0x39098000#32 [(8#5, 0xFFFFFFFF#32)] []) 0x00400004#32 9#5 0xFFFF7FFF#32 0x00000000#32 0x00000000#32 false = true := by decide
/-- V-IALU-15 -/
theorem test_lui_shifts :
    ends (start 0x00400000#32 0x3C098000#32 [] []) 0x00400004#32 9#5 0x80000000#32 0x00000000#32 0x00000000#32 false = true := by decide
/-- V-IALU-17 -/
theorem test_lui_ignores_rs :
    ends (start 0x00400000#32 0x3D098000#32 [(8#5, 0x00000055#32)] []) 0x00400004#32 9#5 0x80000000#32 0x00000000#32 0x00000000#32 false = true := by decide
/-- V-CT-1, `90_conflicts.md` C2 -/
theorem test_beq_taken :
    ends (start 0x00400000#32 0x11090003#32 [(8#5, 0x00000004#32), (9#5, 0x00000004#32)] []) 0x00400010#32 8#5 0x00000004#32 0x00000000#32 0x00000000#32 false = true := by decide
/-- V-CT-2 -/
theorem test_beq_not_taken :
    ends (start 0x00400000#32 0x11090003#32 [(8#5, 0x00000004#32), (9#5, 0x00000005#32)] []) 0x00400004#32 8#5 0x00000004#32 0x00000000#32 0x00000000#32 false = true := by decide
/-- V-CT-6 -/
theorem test_bne_taken_backwards :
    ends (start 0x00400008#32 0x1509FFFF#32 [(8#5, 0x00000001#32), (9#5, 0x00000002#32)] []) 0x00400008#32 8#5 0x00000001#32 0x00000000#32 0x00000000#32 false = true := by decide
/-- V-CT-8 -/
theorem test_bne_most_negative :
    ends (start 0x00420000#32 0x15008000#32 [(8#5, 0x00000001#32)] []) 0x00400004#32 8#5 0x00000001#32 0x00000000#32 0x00000000#32 false = true := by decide
/-- V-CT-9 -/
theorem test_j_example :
    ends (start 0x00400000#32 0x08100100#32 [] []) 0x00400400#32 31#5 0x00000000#32 0x00000000#32 0x00000000#32 false = true := by decide
/-- V-CT-10 -/
theorem test_j_region_of_npc :
    ends (start 0x0FFFFFFC#32 0x0BFFFFFF#32 [] []) 0x1FFFFFFC#32 31#5 0x00000000#32 0x00000000#32 0x00000000#32 false = true := by decide
/-- V-CT-11 -/
theorem test_jal_links :
    ends (start 0x00400000#32 0x0C100100#32 [] []) 0x00400400#32 31#5 0x00400004#32 0x00000000#32 0x00000000#32 false = true := by decide
/-- V-CT-12 -/
theorem test_jal_link_wraps :
    ends (start 0xFFFFFFFC#32 0x0C000000#32 [(31#5, 0xAAAAAAAA#32)] []) 0x00000000#32 31#5 0x00000000#32 0x00000000#32 0x00000000#32 false = true := by decide
/-- V-CT-13 -/
theorem test_jr_returns :
    ends (start 0x00400000#32 0x03E00008#32 [(31#5, 0x00400008#32)] []) 0x00400008#32 31#5 0x00400008#32 0x00000000#32 0x00000000#32 false = true := by decide
/-- V-CT-15 -/
theorem test_jr_misaligned_target :
    ends (start 0x00400000#32 0x01000008#32 [(8#5, 0x00400002#32)] []) 0x00400002#32 8#5 0x00400002#32 0x00000000#32 0x00000000#32 false = true := by decide
/-- V-LS-4 -/
theorem test_lw_negative_offset :
    ends (start 0x00400000#32 0x8D09FFFC#32 [(8#5, 0x10010004#32)] [(0x10010000#32, 0x00000011#32)]) 0x00400004#32 9#5 0x00000011#32 0x10010000#32 0x00000011#32 false = true := by decide
/-- V-LS-5 -/
theorem test_lw_next_address_is_another_cell :
    ends (start 0x00400000#32 0x8D090001#32 [(9#5, 0xAAAAAAAA#32), (8#5, 0x10010000#32)] [(0x10010000#32, 0x00000011#32)]) 0x00400004#32 9#5 0x00000000#32 0x10010000#32 0x00000011#32 false = true := by decide
/-- V-LS-3 -/
theorem test_sw_stores :
    ends (start 0x00400000#32 0xAD090004#32 [(8#5, 0x10010000#32), (9#5, 0xDEADBEEF#32)] []) 0x00400004#32 9#5 0xDEADBEEF#32 0x10010004#32 0xDEADBEEF#32 false = true := by decide
/-- V-LS-9 -/
theorem test_sw_zero_clears :
    ends (start 0x00400000#32 0xAD000000#32 [(8#5, 0x10010000#32)] [(0x10010000#32, 0x00000011#32)]) 0x00400004#32 8#5 0x10010000#32 0x10010000#32 0x00000000#32 false = true := by decide
/-- V-SYS-1 -/
theorem test_syscall_halts :
    ends (start 0x00400010#32 0x0000000C#32 [(2#5, 0x0000000A#32)] []) 0x00400014#32 2#5 0x0000000A#32 0x00000000#32 0x00000000#32 true = true := by decide
/-- V-SYS-3 -/
theorem test_syscall_compares_all_bits :
    ends (start 0x00400000#32 0x0000000C#32 [(2#5, 0x0001000A#32)] []) 0x00400004#32 2#5 0x0001000A#32 0x00000000#32 0x00000000#32 false = true := by decide
/-- V-SYS-5 -/
theorem test_inert_opcode :
    ends (start 0x00400000#32 0x7C000000#32 [(8#5, 0x00000001#32)] []) 0x00400004#32 8#5 0x00000001#32 0x00000000#32 0x00000000#32 false = true := by decide
/-- V-SYS-8 -/
theorem test_inert_lb :
    ends (start 0x00400000#32 0x81090000#32 [(8#5, 0x10010000#32)] [(0x10010000#32, 0x00000011#32)]) 0x00400004#32 9#5 0x00000000#32 0x10010000#32 0x00000011#32 false = true := by decide

/-- A Step that stops with the fault `f`. -/
def stops (s : State) (f : Fault) : Bool :=
  match step s with
  | .next _ => false
  | .fault g => g == f
  | .refused _ => false

/-- V-STEP-2. -/
theorem test_misaligned_fetch_faults :
    stops { start 0x00400000#32 0x00000000#32 [] [] with pc := 0x00400002#32 } (.misalignedFetch 0x00400002#32) = true := by
  decide
/-- The note under V-SYS: `ILLEGAL_POLICY = refuse`. -/
theorem test_unlisted_word_faults_under_refuse :
    stops (let s := start 0x00400000#32 0x7C000000#32 [] [];
      { s with cfg := { s.cfg with illegalPolicy := .refuse } }) (.unlisted 0x7C000000#32) = true := by decide

/-- The image of the V-F vectors. -/
def image : List Word := [0x11111111#32, 0x22222222#32, 0x33333333#32]

/-- The word the fetch port delivers, or nothing where it faults. -/
def fetched (c : Config) (a : Word) : Option Word :=
  match imem c image a with
  | .ok w => some w
  | .error _ => none

/-- `MISALIGNED_FETCH = truncate`. -/
def truncating : Config := { Config.default with misalignedFetch := .truncate }

/-- V-F-1 to V-F-6. -/
theorem test_fetch_port_fault :
    fetched Config.default 0x00400000#32 = some 0x11111111#32 ∧ fetched Config.default 0x00400008#32 = some 0x33333333#32 ∧
    fetched Config.default 0x0040000C#32 = some 0#32 ∧ fetched Config.default 0x003FFFFC#32 = some 0#32 ∧
    fetched Config.default 0x00000000#32 = some 0#32 ∧ fetched Config.default 0x00400006#32 = none := by decide
/-- V-F-7, V-F-8. -/
theorem test_fetch_port_truncate :
    fetched truncating 0x00400006#32 = some 0x22222222#32 ∧ fetched truncating 0x0040000E#32 = some 0#32 := by decide

/-- V-STEP-5, with a data image of two words, the second zero. -/
theorem test_boot_loads :
    (match boot Config.default [0x2402000A#32] [5#32, 0#32] with
      | .next s => s.pc == 0x00400000#32 && s.dmem 0x10010000#32 == 5#32 && s.mem == [(0x10010000, 5#32)] && s.fd.isNone
      | .fault _ => false
      | .refused _ => false) = true := by decide

/-! ### Witnesses: states that meet the hypotheses of the statements -/

/-- A running machine at the default base, with `w` as its one-word image. -/
def running (w : Word) : State := start 0x00400000#32 w [] []

/-- The same, with unlisted words refused. -/
def refusing (w : Word) : State :=
  { running w with cfg := { (running w).cfg with illegalPolicy := .refuse } }

/-- The state a Step leaves, or the state itself where there is none. -/
def after (s : State) : State :=
  match step s with
  | .next t => t
  | .fault _ => s
  | .refused _ => s

/-- FieldsStandAtTheirBits: the highest bit of each width, and the first beyond it. -/
theorem witness_FieldsStandAtTheirBits : (5 < 6 ∧ ¬ 6 < 6) ∧ (4 < 5 ∧ ¬ 5 < 5) ∧ (15 < 16) ∧ (25 < 26) := by decide

/-- OpcodeTableSelectsTheInstruction, last clause: a word that matches a row, for the first row and the last. -/
theorem witness_OpcodeTableSelectsTheInstruction :
    (⟨.add, maskFunct, 0x00000020#32⟩ : OpcodeRow) ∈ opcodeTable ∧ 0x01095020#32 &&& maskFunct = 0x00000020#32 ∧
    (⟨.sw, maskOpcode, 0xAC000000#32⟩ : OpcodeRow) ∈ opcodeTable ∧ 0xAD090004#32 &&& maskOpcode = 0xAC000000#32 := by
  decide

/-- DecoderRejectsExactlyTheUnlistedWords, last clause: an opcode other than 0. -/
theorem witness_DecoderRejectsExactlyTheUnlistedWords : (63#6 : BitVec 6) ≠ 0#6 := by decide

theorem witness_EncodeOfDecodeIsTheWord : decode 0x01095060#32 = .ok (.add 8#5 9#5 10#5 1#5) := by decide

/-- IgnoredFieldsDoNotMatter, first clause: opcode 0 with the same funct, and another opcode with another funct. -/
theorem witness_IgnoredFieldsDoNotMatter :
    (opcodeOf 0x01095020#32 = opcodeOf 0x01095060#32 ∧ opcodeOf 0x01095020#32 = 0#6 ∧
      functOf 0x01095020#32 = functOf 0x01095060#32 ∧ decode 0x01095020#32 = .ok (.add 8#5 9#5 10#5 0#5)) ∧
    (opcodeOf 0x8D090004#32 = opcodeOf 0x8D09FFFC#32 ∧ opcodeOf 0x8D090004#32 ≠ 0#6 ∧
      decode 0x8D090004#32 = .ok (.lw 8#5 9#5 4#16)) := by decide

/-- AluComputesTheOperations: the lowest and the highest bit. -/
theorem witness_AluComputesTheOperations : 0 < 32 ∧ 31 < 32 := by decide

/-- BootLeavesTheResetState: both images as high in the address space as they can stand, one word each; its inner
clauses at word 0, and a cell outside the data image. -/
theorem witness_BootLeavesTheResetState :
    let c : Config := { Config.default with imemBase := 0xFFFFFFFC#32, dmemBase := 0xFFFFFFFC#32 }
    c.imemBase.toNat % 4 = 0 ∧ c.imemBase.toNat + 4 * [0#32].length ≤ 2 ^ 32 ∧ [7#32].length ≤ 2 ^ 30 ∧
    c.dmemBase.toNat + 4 * [7#32].length ≤ 2 ^ 32 ∧ 0 < [7#32].length ∧
    ∀ j < [7#32].length, (0#32 : Word) ≠ c.dmemBase + BitVec.ofNat 32 (4 * j) := by decide

/-- FetchPortDelivers, clause by clause at the edges: misaligned under `fault`; just below the base; the last word;
one past the end; and a misaligned address under `truncate`. -/
theorem witness_FetchPortDelivers :
    (Config.default.misalignedFetch = .fault ∧ (0x00400003#32 : Word).toNat % 4 ≠ 0) ∧
    ((0x003FFFFC#32 : Word).toNat % 4 = 0 ∧ (0x003FFFFC#32 : Word).toNat < Config.default.imemBase.toNat) ∧
    ((0x00400008#32 : Word).toNat % 4 = 0 ∧ Config.default.imemBase.toNat ≤ (0x00400008#32 : Word).toNat ∧
      ((0x00400008#32 : Word).toNat - Config.default.imemBase.toNat) / 4 < image.length) ∧
    ((0x0040000C#32 : Word).toNat % 4 = 0 ∧
      image.length ≤ ((0x0040000C#32 : Word).toNat - Config.default.imemBase.toNat) / 4) ∧
    (truncating.misalignedFetch = .truncate ∧ (0x0040000B#32 : Word).toNat % 4 ≠ 0 ∧
      ((0x0040000B#32 : Word).toNat - truncating.imemBase.toNat) / 4 < image.length) := by decide

theorem witness_StepRunsTheDecodedInstruction :
    (running 0x01095020#32).halted = false ∧ fetch (running 0x01095020#32) = .ok 0x01095020#32 ∧
    decode 0x01095020#32 = .ok (.add 8#5 9#5 10#5 0#5) := by decide

theorem witness_FetchAndDecodeFillTheirLatches :
    (running 0x01095020#32).halted = false ∧ fetch (running 0x01095020#32) = .ok 0x01095020#32 ∧
    step (running 0x01095020#32) = .next (after (running 0x01095020#32)) := ⟨by decide, by decide, rfl⟩

theorem witness_InertWordOnlyAdvances :
    (running 0x7C000000#32).halted = false ∧ fetch (running 0x7C000000#32) = .ok 0x7C000000#32 ∧
    (∀ row ∈ opcodeTable, 0x7C000000#32 &&& row.mask ≠ row.pattern) ∧
    (running 0x7C000000#32).cfg.illegalPolicy = .inert := by decide

theorem witness_UnlistedWordFaultsUnderRefuse :
    (refusing 0x00000001#32).halted = false ∧ fetch (refusing 0x00000001#32) = .ok 0x00000001#32 ∧
    (∀ row ∈ opcodeTable, 0x00000001#32 &&& row.mask ≠ row.pattern) ∧
    (refusing 0x00000001#32).cfg.illegalPolicy = .refuse := by decide

/-- OutOfRangeFetchIsANop: the last aligned address below the image, the first one past it, and under `truncate` the
misaligned neighbours of both ends. -/
theorem witness_OutOfRangeFetchIsANop :
    (let s : State := { running 0#32 with pc := 0x003FFFFC#32 };
      s.halted = false ∧ s.pc.toNat % 4 = 0 ∧ s.pc.toNat < s.cfg.imemBase.toNat) ∧
    (let s : State := { running 0#32 with pc := 0x00400004#32 };
      s.halted = false ∧ s.pc.toNat % 4 = 0 ∧ s.cfg.imemBase.toNat + 4 * s.prog.length ≤ s.pc.toNat) ∧
    (let s : State := { running 0#32 with pc := 0x003FFFFF#32, cfg := truncating };
      s.halted = false ∧ s.cfg.misalignedFetch = .truncate ∧ s.pc.toNat < s.cfg.imemBase.toNat) ∧
    (let s : State := { running 0#32 with pc := 0x00400005#32, cfg := truncating };
      s.halted = false ∧ s.cfg.misalignedFetch = .truncate ∧
        s.cfg.imemBase.toNat + 4 * s.prog.length ≤ s.pc.toNat) := by
  decide

theorem witness_HaltedStepDoesNothing : ({ running 0#32 with halted := true } : State).halted = true := by decide

/-- OnlyTheHaltingSyscallHalts: a Step that halts, one that does not, and a boot. -/
theorem witness_OnlyTheHaltingSyscallHalts :
    (let s := start 0x00400000#32 0x0000000C#32 [(2#5, 10#32)] [];
      step s = .next (after s) ∧ (after s).halted = true) ∧
    (step (running 0x0000000C#32) = .next (after (running 0x0000000C#32)) ∧
      (after (running 0x0000000C#32)).halted = false) ∧
    boot Config.default [] [] = .next State.reset :=
  ⟨⟨rfl, by decide⟩, ⟨rfl, by decide⟩, rfl⟩

/-- StepFaultsExactlyAsConfigured: each fault occurs, and there is a configuration of the second clause. -/
theorem witness_StepFaultsExactlyAsConfigured :
    step { running 0#32 with pc := 0x00400002#32 } = .fault (.misalignedFetch 0x00400002#32) ∧
    step (refusing 0x7C000000#32) = .fault (.unlisted 0x7C000000#32) ∧
    (running 0#32).cfg.illegalPolicy = .inert := ⟨rfl, rfl, rfl⟩

/-- EachRunningStepCountsOneCycle, NoStepChangesTheImage: a running Step and a halted one. -/
theorem witness_EachRunningStepCountsOneCycle :
    step (running 0#32) = .next (after (running 0#32)) ∧
    step { running 0#32 with halted := true } = .next { running 0#32 with halted := true } := ⟨rfl, rfl⟩

theorem witness_NoStepChangesTheImage :
    step (running 0xAD090004#32) = .next (after (running 0xAD090004#32)) := rfl

/-- OnlyJrCanMisalignThePc: a jr to an aligned address, and an instruction that is no jr. -/
theorem witness_OnlyJrCanMisalignThePc :
    (let s := start 0x00400000#32 0#32 [(31#5, 0x00400008#32)] [];
      s.pc.toNat % 4 = 0 ∧ ∀ rs rt rd shamt, Instr.jr 31#5 0#5 0#5 0#5 = .jr rs rt rd shamt → (s.reg rs).toNat % 4 = 0) ∧
    ((running 0#32).pc.toNat % 4 = 0 ∧
      ∀ rs rt rd shamt, Instr.j 0#26 = .jr rs rt rd shamt → ((running 0#32).reg rs).toNat % 4 = 0) := by
  refine ⟨⟨by decide, ?_⟩, by decide, ?_⟩
  · intro rs rt rd shamt h
    injection h with h1
    subst h1
    decide
  · intro rs rt rd shamt h
    cases h

/-- OnlyTheDestinationRegisterChanges: a word of each clause changes its destination, sltu (the highest funct of
`30_encoding.md` R96), lui (opcode 15), lw and jal. -/
theorem witness_OnlyTheDestinationRegisterChanges :
    (let s := start 0x00400000#32 0x0109502B#32 [(9#5, 1#32)] [];
      fetch s = .ok 0x0109502B#32 ∧ step s = .next (after s) ∧ (after s).reg 10#5 ≠ s.reg 10#5) ∧
    (let s := running 0x3C098000#32;
      fetch s = .ok 0x3C098000#32 ∧ step s = .next (after s) ∧ (after s).reg 9#5 ≠ s.reg 9#5) ∧
    (let s := start 0x00400000#32 0x8D090000#32 [] [(0#32, 7#32)];
      fetch s = .ok 0x8D090000#32 ∧ step s = .next (after s) ∧ (after s).reg 9#5 ≠ s.reg 9#5) ∧
    (let s := running 0x0C100100#32;
      fetch s = .ok 0x0C100100#32 ∧ step s = .next (after s) ∧ (after s).reg 31#5 ≠ s.reg 31#5) :=
  ⟨⟨by decide, rfl, by decide⟩, ⟨by decide, rfl, by decide⟩, ⟨by decide, rfl, by decide⟩, by decide, rfl, by decide⟩

/-- OnlySwChangesTheDataMemory: V-LS-3. -/
theorem witness_OnlySwChangesTheDataMemory :
    let s := start 0x00400000#32 0xAD090004#32 [(8#5, 0x10010000#32), (9#5, 0xDEADBEEF#32)] []
    fetch s = .ok 0xAD090004#32 ∧ step s = .next (after s) ∧ (after s).dmem 0x10010004#32 ≠ s.dmem 0x10010004#32 :=
  ⟨by decide, rfl, by decide⟩

theorem witness_LoadAfterStoreReadsTheStoredWord : (10#5 : RegNum) ≠ 0#5 := by decide

/-- CallThenReturnGoesBack: the state right after the jal holds its own link. -/
theorem witness_CallThenReturnGoesBack :
    let t := after (running 0x0C100100#32)
    t.reg 31#5 = 0x00400004#32 ∧ t.reg 31#5 = t.reg 31#5 := by decide

/-- RunEndsInTheHaltingStep: a halted state, a Step that halts, a Step that faults. -/
theorem witness_RunEndsInTheHaltingStep :
    (let s := start 0x00400000#32 0x0000000C#32 [(2#5, 10#32)] [];
      s.halted = false ∧ step s = .next (after s) ∧ (after s).halted = true) ∧
    step (refusing 0x7C000000#32) = .fault (.unlisted 0x7C000000#32) := ⟨⟨by decide, rfl, by decide⟩, rfl⟩

/-- MoreFuelChangesNoFinishedRun, RunCountsItsSteps: a run that halts after one Step, and a run that faults. -/
theorem witness_RunCountsItsSteps :
    (let s := start 0x00400000#32 0x0000000C#32 [(2#5, 10#32)] [];
      run 1 s = .halted 1 (after s)) ∧
    run 1 (refusing 0x7C000000#32) = .fault (.unlisted 0x7C000000#32) := ⟨rfl, rfl⟩

theorem witness_TruncatingInertMachineNeverFaults : faultFree truncating = true := by decide

/-- SnapshotShowsTheState, EveryStepKeepsTheInvariant: the reset state meets the invariant and steps; so does a halted
one, right after its syscall. -/
theorem witness_EveryStepKeepsTheInvariant :
    State.reset.inv = true ∧ step State.reset = .next (after State.reset) ∧
    (let s := after (start 0x00400000#32 0x0000000C#32 [(2#5, 10#32)] []);
      s.inv = true ∧ s.halted = true ∧ step s = .next s) := ⟨by decide, rfl, by decide, by decide, rfl⟩

theorem witness_SnapshotShowsTheState : 4 < 5 ∧ State.reset.inv = true := by decide

/-- CanonicalMemoriesAreEqualByContents: two canonical memories with the same contents, written in two orders. -/
theorem witness_CanonicalMemoriesAreEqualByContents :
    let m := Memory.write (Memory.write [] 4#32 1#32) 8#32 2#32
    let m' := Memory.write (Memory.write [] 8#32 2#32) 4#32 1#32
    Memory.wf m = true ∧ Memory.wf m' = true ∧ ∀ a : Word, Memory.read m a = Memory.read m' a := by
  refine ⟨by decide, by decide, fun a => ?_⟩
  simp only [Memory.read_write, Memory.read_nil]
  split
  · rename_i h; subst h; decide
  · rfl

theorem witness_InvariantHoldsAfterBoot :
    boot Config.default [0x2402000A#32] [5#32] = .next (State.loaded Config.default [0x2402000A#32] [5#32]) := rfl

end Sys2Proof.Tests
end

section
/-! PROOFS. The two extensions of a 16-bit immediate as numbers (`00_scope.md` R12). -/

namespace Sys2Proof.Machine

/-- Zero extension keeps the number. -/
@[simp] theorem toNat_zext32 (v : BitVec 16) : (zext32 v).toNat = v.toNat :=
  BitVec.toNat_setWidth_of_le (by decide)

/-- Sign extension as a number: no wrap occurs, as `v` is below `2^16`. -/
theorem toNat_sext32 (v : BitVec 16) :
    (sext32 v).toNat = v.toNat + if v.getLsbD 15 then 0xFFFF0000 else 0 := by
  have hsign : v.msb = v.getLsbD 15 := BitVec.msb_eq_getLsbD_last v
  rw [sext32, BitVec.toNat_signExtend, hsign, BitVec.toNat_setWidth_of_le (by decide)]

/-- A nonnegative immediate extends alike both ways. -/
theorem sext32_of_bit15_clear {v : BitVec 16} (h : ¬ v.getLsbD 15) : sext32 v = zext32 v :=
  BitVec.eq_of_toNat_eq (by rw [toNat_sext32, if_neg h, toNat_zext32, Nat.add_zero])

/-- A negative immediate's sign extension fills the upper half with ones. -/
theorem sext32_of_bit15_set {v : BitVec 16} (h : v.getLsbD 15) :
    sext32 v = zext32 v + 0xFFFF0000#32 := by
  have hsum : (sext32 v).toNat = v.toNat + 0xFFFF0000 := by rw [toNat_sext32, if_pos h]
  have hzext := toNat_zext32 v
  bv_omega

/-- Settles O2: the zero extension as a number, and the sign extension by the value of bit 15. -/
theorem immediatesExtendByBit15 : Obligations.ImmediatesExtendByBit15 := by
  intro v
  refine ⟨toNat_zext32 v, ?_⟩
  split
  case isTrue h => exact sext32_of_bit15_set h
  case isFalse h => exact sext32_of_bit15_clear h

end Sys2Proof.Machine
end

section
/-! PROOFS. What every Step leaves alone: the instruction image (`20_memory.md` R68) and the host's parameters
(`10_state.md` R36). -/

namespace Sys2Proof.Machine

/-- Every stage of a Step, the store of the Memory stage included, leaves the instruction image as it was. -/
theorem step_keeps_prog {s t : State} (h : step s = .next t) : t.prog = s.prog := by
  obtain ⟨-, rfl⟩ | ⟨-, w, halts, em, -, rfl, -⟩ := step_next h
  · rfl
  · simp only [retire_prog, haltIf_prog, issue_prog]

/-- Every stage of a Step leaves the host's parameters as they were. -/
theorem step_keeps_cfg {s t : State} (h : step s = .next t) : t.cfg = s.cfg := by
  obtain ⟨-, rfl⟩ | ⟨-, w, halts, em, -, rfl, -⟩ := step_next h
  · rfl
  · simp only [retire_cfg, haltIf_cfg, issue_cfg]

/-- Settles O43: the fetch port reads the image and the parameters alone, and a Step keeps both. -/
theorem noStepChangesTheImage : Obligations.NoStepChangesTheImage := by
  intro s t h
  have hprog : t.prog = s.prog := step_keeps_prog h
  have hcfg : t.cfg = s.cfg := step_keeps_cfg h
  exact ⟨hprog, hcfg, fun a => by rw [hprog, hcfg]⟩

end Sys2Proof.Machine
end

section
/-! PROOFS. The ALU in integers and bits (`40_datapath.md` R121): an equation for each operation that leaves
`BitVec`'s own operators. -/

namespace Sys2Proof.Machine

/-- Subtraction wraps modulo `2^32` (`00_scope.md` R11): the integer difference, reduced. -/
theorem alu_sub_toNat (a b : Word) : ((alu .sub a b).toNat : Int) = ((a.toNat : Int) - b.toNat) % 2 ^ 32 := by
  have hsub : (alu .sub a b).toNat = (2 ^ 32 - b.toNat + a.toNat) % 2 ^ 32 := BitVec.toNat_sub a b
  have hb : b.toNat < 2 ^ 32 := b.isLt
  omega

/-- The four bitwise operations at one bit; nor's complement stops at the word's width. -/
theorem alu_bitwise_getLsbD (a b : Word) {k : Nat} (hk : k < 32) :
    (alu .and a b).getLsbD k = (a.getLsbD k && b.getLsbD k) ∧
    (alu .or a b).getLsbD k = (a.getLsbD k || b.getLsbD k) ∧
    (alu .xor a b).getLsbD k = (a.getLsbD k != b.getLsbD k) ∧
    (alu .nor a b).getLsbD k = !(a.getLsbD k || b.getLsbD k) := by
  refine ⟨BitVec.getLsbD_and, BitVec.getLsbD_or, BitVec.getLsbD_xor, ?_⟩
  rw [alu, BitVec.getLsbD_not, BitVec.getLsbD_or, decide_eq_true hk, Bool.true_and]

theorem alu_slt (a b : Word) : alu .slt a b = if a.toInt < b.toInt then 1#32 else 0#32 := by
  simp only [alu, BitVec.slt_iff_toInt_lt]

theorem alu_sltu (a b : Word) : alu .sltu a b = if a.toNat < b.toNat then 1#32 else 0#32 := by
  simp only [alu, BitVec.ult_iff_toNat_lt]

/-- A left shift multiplies by a power of two and drops the bits past the word. -/
theorem alu_sll_toNat (a b : Word) : (alu .sll a b).toNat = a.toNat * 2 ^ (b.toNat % 32) % 2 ^ 32 := by
  rw [alu, BitVec.toNat_shiftLeft, Nat.shiftLeft_eq]

theorem alu_srl_toNat (a b : Word) : (alu .srl a b).toNat = a.toNat / 2 ^ (b.toNat % 32) := by
  rw [alu, BitVec.toNat_ushiftRight, Nat.shiftRight_eq_div_pow]

theorem alu_lui_toNat (a b : Word) : (alu .lui a b).toNat = b.toNat * 2 ^ 16 % 2 ^ 32 := by
  rw [alu, BitVec.toNat_shiftLeft, Nat.shiftLeft_eq]

/-- Settles O10: one equation for each operation of R121. -/
theorem aluComputesTheOperations : Obligations.AluComputesTheOperations := by
  intro a b
  exact ⟨BitVec.toNat_add a b, alu_sub_toNat a b, fun _ hk => alu_bitwise_getLsbD a b hk, alu_slt a b, alu_sltu a b,
    alu_sll_toNat a b, alu_srl_toNat a b, alu_lui_toNat a b⟩

end Sys2Proof.Machine
end

section
/-! PROOFS. What the first two stages of a Step leave behind (`40_datapath.md` R111, R114 to R116), and the Step
entered halted (R136). -/

namespace Sys2Proof.Machine

/-- A Step that was entered running and answers: the stages after Decode keep the two latches that `issue` wrote. -/
theorem step_keeps_issued_latches {s t : State} {w : Word} (hrun : s.halted = false) (hfetch : fetch s = .ok w)
    (h : step s = .next t) : t.fd = (s.issue w).fd ∧ t.de = (s.issue w).de := by
  obtain ⟨hhalted, -⟩ | ⟨-, w', halts, em, hfetch', rfl, -⟩ := step_next h
  · simp [hrun] at hhalted
  · obtain rfl : w' = w := Except.ok.inj (hfetch'.symm.trans hfetch)
    exact ⟨by rw [retire_fd, haltIf_fd], by rw [retire_de, haltIf_de]⟩

/-- Settles O35: the two latches are as `issue` wrote them, from the state at the start of the Step. -/
theorem fetchAndDecodeFillTheirLatches : Obligations.FetchAndDecodeFillTheirLatches := by
  intro s t w hrun hfetch h
  obtain ⟨hfd, hde⟩ := step_keeps_issued_latches hrun hfetch h
  exact ⟨hfd.trans (issue_fd s w), hde.trans (issue_de s w)⟩

/-- Settles O39: of all that a Step can do, only the first case is entered halted. -/
theorem haltedStepDoesNothing : Obligations.HaltedStepDoesNothing := by
  intro s hhalted
  obtain ⟨-, hstep⟩ | ⟨hrun, -⟩ | ⟨hrun, -⟩ | ⟨hrun, -⟩ := step_cases s
  · exact hstep
  all_goals simp [hhalted] at hrun

end Sys2Proof.Machine
end

section
/-! PROOFS. Which words select an instruction (`30_encoding.md` R95): a row's `mask` and `match` say what the
decoder's dispatch says. -/

namespace Sys2Proof

/-- The dispatch of R88: a row is selected by its opcode, and by its funct where the opcode is 0. -/
theorem lookup_eq_some_iff {opcode funct : BitVec 6} {op : Op} :
    lookup opcode funct = some op ↔ opcode = op.opcodeBits ∧ (opcode = 0#6 → funct = op.functBits) := by
  refine ⟨bits_of_lookup, ?_⟩
  rintro ⟨hopcode, hfunct⟩
  have hself : lookup op.opcodeBits op.functBits = some op := by cases op <;> rfl
  by_cases h0 : opcode = 0#6
  · rw [hfunct h0, hopcode, hself]
  · rw [lookup_of_opcode_ne funct op.functBits h0, hopcode, hself]

/-- A word decodes to a row's instruction, with its own fields, iff the lookup finds the row. -/
theorem decode_eq_instrOf_iff {w : Word} {op : Op} :
    decode w = .ok (instrOf op w) ↔ lookup (opcodeOf w) (functOf w) = some op := by
  rw [decode_ok_iff]
  constructor
  · rintro ⟨op', hlookup, hinstr⟩
    have hop : op' = op := by simpa only [instrOf_op] using congrArg Instr.op hinstr
    rw [hlookup, hop]
  · exact fun hlookup => ⟨op, hlookup, rfl⟩

/-- A word matches a row of the table iff it carries the row's opcode, and the row's funct where the opcode is 0. -/
theorem and_mask_eq_pattern_iff {row : OpcodeRow} (hrow : row ∈ opcodeTable) (w : Word) :
    w &&& row.mask = row.pattern ↔
      opcodeOf w = row.op.opcodeBits ∧ (opcodeOf w = 0#6 → functOf w = row.op.functBits) := by
  obtain hrow | hrow := List.mem_append.mp hrow
  · have hrows : ∀ r ∈ functRows, r.mask = maskFunct ∧ r.pattern &&& maskFunct = r.pattern ∧
        opcodeOf r.pattern = 0#6 ∧ r.op.opcodeBits = 0#6 ∧ functOf r.pattern = r.op.functBits := by decide
    obtain ⟨hmask, hself, hopcode, hbits, hfunct⟩ := hrows row hrow
    rw [hmask, ← hself, and_maskFunct_eq_iff, hopcode, hbits, hfunct]
    exact and_congr_right fun h0 => (imp_iff_right h0).symm
  · have hrows : ∀ r ∈ opcodeRows, r.mask = maskOpcode ∧ r.pattern &&& maskOpcode = r.pattern ∧
        opcodeOf r.pattern = r.op.opcodeBits ∧ r.op.opcodeBits ≠ 0#6 := by decide
    obtain ⟨hmask, hself, hopcode, hbits⟩ := hrows row hrow
    rw [hmask, ← hself, and_maskOpcode_eq_iff, hopcode]
    exact (and_iff_left_of_imp fun h h0 => absurd (h.symm.trans h0) hbits).symm

namespace Machine

/-- Every row of the opcode table selects its own instruction. -/
theorem selectedBy_of_mem {row : OpcodeRow} (hrow : row ∈ opcodeTable) :
    SelectedBy row.mask row.pattern (instrOf row.op) := fun w => by
  rw [and_mask_eq_pattern_iff hrow, ← lookup_eq_some_iff, decode_eq_instrOf_iff]

end Machine

end Sys2Proof
end

section
/-! PROOFS. The register ALU instructions (`41_register_alu.md` R150 to R162): each is a row of the opcode table, and
its effect is that of the ALU operation it names, in the terms the rules write. -/

namespace Sys2Proof.Machine

/-- An instruction that passes two operands through the ALU writes its destination and no other thing. -/
theorem setsReg_of_aluToReg {i : Instr} {dest : RegNum} {value : State → Word} (op : AluOp) (a b : State → Word)
    (hexec : ∀ s, exec i s = aluToReg op (a s) (b s) dest s) (hvalue : ∀ s, alu op (a s) (b s) = value s) :
    SetsReg i dest value := by
  intro s
  obtain ⟨t, ht, hreg, hpc, hmem, hhalted, hcfg, hprog, hcycles, hfd, hde, -⟩ := aluToReg_spec op (a s) (b s) dest s
  rw [hvalue s] at hreg
  have hsame : SameMem s t := fun c => by rw [State.dmem, hmem, State.dmem]
  exact ⟨t, (hexec s).trans ht, hreg, hpc, hhalted, hsame, hcfg, hprog, hcycles, hfd, hde⟩

/-- Settles O11: both words select a row whose ALU operation is the wrapping sum. -/
theorem addAndAdduWriteTheSum : Obligations.AddAndAdduWriteTheSum := by
  refine ⟨selectedBy_of_mem (row := ⟨.add, maskFunct, 0x00000020#32⟩) (by decide),
    selectedBy_of_mem (row := ⟨.addu, maskFunct, 0x00000021#32⟩) (by decide), fun rs rt rd shamt => ⟨?add, ?addu⟩⟩
  case add => exact setsReg_of_aluToReg .add (·.reg rs) (·.reg rt) (fun _ => rfl) fun _ => rfl
  case addu => exact setsReg_of_aluToReg .add (·.reg rs) (·.reg rt) (fun _ => rfl) fun _ => rfl

/-- Settles O12: both words select a row whose ALU operation is the wrapping difference. -/
theorem subAndSubuWriteTheDifference : Obligations.SubAndSubuWriteTheDifference := by
  refine ⟨selectedBy_of_mem (row := ⟨.sub, maskFunct, 0x00000022#32⟩) (by decide),
    selectedBy_of_mem (row := ⟨.subu, maskFunct, 0x00000023#32⟩) (by decide), fun rs rt rd shamt => ⟨?sub, ?subu⟩⟩
  case sub => exact setsReg_of_aluToReg .sub (·.reg rs) (·.reg rt) (fun _ => rfl) fun _ => rfl
  case subu => exact setsReg_of_aluToReg .sub (·.reg rs) (·.reg rt) (fun _ => rfl) fun _ => rfl

/-- Settles O13: one row and one ALU operation for each of the four. -/
theorem bitwiseOpsWriteRd : Obligations.BitwiseOpsWriteRd := by
  refine ⟨selectedBy_of_mem (row := ⟨.and, maskFunct, 0x00000024#32⟩) (by decide),
    selectedBy_of_mem (row := ⟨.or, maskFunct, 0x00000025#32⟩) (by decide),
    selectedBy_of_mem (row := ⟨.xor, maskFunct, 0x00000026#32⟩) (by decide),
    selectedBy_of_mem (row := ⟨.nor, maskFunct, 0x00000027#32⟩) (by decide),
    fun rs rt rd shamt => ⟨?and, ?or, ?xor, ?nor⟩⟩
  case and => exact setsReg_of_aluToReg .and (·.reg rs) (·.reg rt) (fun _ => rfl) fun _ => rfl
  case or => exact setsReg_of_aluToReg .or (·.reg rs) (·.reg rt) (fun _ => rfl) fun _ => rfl
  case xor => exact setsReg_of_aluToReg .xor (·.reg rs) (·.reg rt) (fun _ => rfl) fun _ => rfl
  case nor => exact setsReg_of_aluToReg .nor (·.reg rs) (·.reg rt) (fun _ => rfl) fun _ => rfl

/-- Settles O14: the ALU's two comparisons are those of the operands as integers. -/
theorem setLessThanWritesRd : Obligations.SetLessThanWritesRd := by
  refine ⟨selectedBy_of_mem (row := ⟨.slt, maskFunct, 0x0000002A#32⟩) (by decide),
    selectedBy_of_mem (row := ⟨.sltu, maskFunct, 0x0000002B#32⟩) (by decide), fun rs rt rd shamt => ⟨?slt, ?sltu⟩⟩
  case slt => exact setsReg_of_aluToReg .slt (·.reg rs) (·.reg rt) (fun _ => rfl) fun _ => alu_slt _ _
  case sltu => exact setsReg_of_aluToReg .sltu (·.reg rs) (·.reg rt) (fun _ => rfl) fun _ => alu_sltu _ _

/-! ### The shifts -/

/-- The ALU's five-bit reading of operand B loses nothing of a shift amount (`40_datapath.md` R121, R122). -/
theorem shiftAmount_toNat_mod (shamt : BitVec 5) : (shiftAmount shamt).toNat % 32 = shamt.toNat := by
  rw [shiftAmount, BitVec.toNat_setWidth_of_le (by decide), Nat.mod_eq_of_lt shamt.isLt]

theorem alu_sll_shiftAmount (x : Word) (shamt : BitVec 5) :
    alu .sll x (shiftAmount shamt) = BitVec.ofNat 32 (x.toNat * 2 ^ shamt.toNat) :=
  BitVec.eq_of_toNat_eq (by rw [alu_sll_toNat, shiftAmount_toNat_mod, BitVec.toNat_ofNat])

theorem alu_srl_shiftAmount (x : Word) (shamt : BitVec 5) :
    alu .srl x (shiftAmount shamt) = BitVec.ofNat 32 (x.toNat / 2 ^ shamt.toNat) := by
  have hlt : x.toNat / 2 ^ shamt.toNat < 2 ^ 32 := (Nat.div_le_self _ _).trans_lt x.isLt
  exact BitVec.eq_of_toNat_eq
    (by rw [alu_srl_toNat, shiftAmount_toNat_mod, BitVec.toNat_ofNat, Nat.mod_eq_of_lt hlt])

/-- The word of a sll is zero only when all its fields are (`30_encoding.md` R92). -/
theorem encode_sll_eq_zero_iff {rs rt rd : RegNum} {shamt : BitVec 5} :
    encode (.sll rs rt rd shamt) = 0#32 ↔ rs = 0#5 ∧ rt = 0#5 ∧ rd = 0#5 ∧ shamt = 0#5 := by
  constructor
  · intro hzero
    obtain ⟨-, hrs, hrt, hrd, hshamt, -⟩ := encodeR_fields rs rt rd shamt 0#6
    rw [show encodeR rs rt rd shamt 0#6 = 0#32 from hzero] at hrs hrt hrd hshamt
    exact ⟨hrs.symm, hrt.symm, hrd.symm, hshamt.symm⟩
  · rintro ⟨rfl, rfl, rfl, rfl⟩
    rfl

/-- What Execute forms for sll (`41_register_alu.md` R161): the shifted word, with the zero word's write gated off. -/
def sllLatch (rs rt rd : RegNum) (shamt : BitVec 5) (s : State) : EMLatch :=
  { EMLatch.result rd (alu .sll (s.reg rt) (shiftAmount shamt)) with
    regWrite := encode (.sll rs rt rd shamt) != 0#32 }

theorem exec_sll (rs rt rd : RegNum) (shamt : BitVec 5) (s : State) :
    exec (.sll rs rt rd shamt) s = .next (s.retire (sllLatch rs rt rd shamt s)) := rfl

theorem sllLatch_regWrite_eq_false_iff {rs rt rd : RegNum} {shamt : BitVec 5} {s : State} :
    (sllLatch rs rt rd shamt s).regWrite = false ↔ rs = 0#5 ∧ rt = 0#5 ∧ rd = 0#5 ∧ shamt = 0#5 :=
  bne_eq_false_iff_eq.trans encode_sll_eq_zero_iff

/-- The gate changes no register: where it is closed, the destination is register 0. -/
theorem sll_setsReg (rs rt rd : RegNum) (shamt : BitVec 5) :
    SetsReg (.sll rs rt rd shamt) rd fun s => BitVec.ofNat 32 ((s.reg rt).toNat * 2 ^ shamt.toNat) := by
  intro s
  have hgate (hrd : rd ≠ 0#5) : (sllLatch rs rt rd shamt s).regWrite = true := by
    refine Bool.eq_true_of_not_eq_false fun hoff => ?_
    obtain ⟨-, -, hrd0, -⟩ := sllLatch_regWrite_eq_false_iff.mp hoff
    exact hrd hrd0
  refine ⟨_, exec_sll rs rt rd shamt s, fun q => ?reg, retire_pc s _, retire_halted s _, fun a => ?mem,
    retire_cfg s _, retire_prog s _, retire_cycles s _, retire_fd s _, retire_de s _⟩
  case reg =>
    have hcond : ((sllLatch rs rt rd shamt s).regWrite = true ∧ q = rd ∧ rd ≠ 0#5) ↔ q = rd ∧ rd ≠ 0#5 :=
      and_iff_right_of_imp fun h => hgate h.2
    rw [retire_reg]
    exact if_congr hcond (alu_sll_shiftAmount _ shamt) rfl
  case mem => exact retire_dmem s _ a

/-- Settles O15: the row, the effect in every state, and the write signal of the zero word. -/
theorem sllShiftsLeft : Obligations.SllShiftsLeft := by
  refine ⟨selectedBy_of_mem (row := ⟨.sll, maskFunct, 0x00000000#32⟩) (by decide), sll_setsReg, ?_⟩
  intro rs rt rd shamt s
  exact ⟨_, _, exec_sll rs rt rd shamt s, retire_em s _, sllLatch_regWrite_eq_false_iff⟩

/-- Settles O16: srl's row has the ALU's logical shift. -/
theorem srlShiftsRightLogically : Obligations.SrlShiftsRightLogically := by
  refine ⟨selectedBy_of_mem (row := ⟨.srl, maskFunct, 0x00000002#32⟩) (by decide), fun rs rt rd shamt => ?_⟩
  exact setsReg_of_aluToReg .srl (·.reg rt) (fun _ => shiftAmount shamt) (fun _ => rfl)
    fun _ => alu_srl_shiftAmount _ shamt

end Sys2Proof.Machine
end

section
/-! PROOFS. The control-transfer instructions (`42_control_transfer.md` R181 to R185): each is a row of the opcode
table, and of what a program can see it changes the pc and, for jal, the link register. -/

namespace Sys2Proof.Machine

/-- No stage after Decode touches what Fetch and Decode wrote, or what the host gave. -/
theorem sameRest_retire (s : State) (em : EMLatch) : SameRest s (s.retire em) :=
  ⟨retire_cfg s em, retire_prog s em, retire_cycles s em, retire_fd s em, retire_de s em⟩

/-- Without a store in `EM`, the Memory stage leaves the data memory as it was (`40_datapath.md` R127). -/
theorem sameMem_retire {em : EMLatch} (s : State) (hstore : em.memWrite = false) : SameMem s (s.retire em) := by
  intro a
  rw [retire_dmem, if_neg (by simp [hstore])]

/-- Without a register write in `EM`, WriteBack leaves the registers as they were (`40_datapath.md` R133). -/
theorem sameRegs_retire {em : EMLatch} (s : State) (hwrite : em.regWrite = false) : SameRegs s (s.retire em) := by
  intro r
  rw [retire_reg, if_neg (by simp [hwrite])]

/-- With a register write and no load in `EM`, WriteBack commits the ALU's result (`40_datapath.md` R133). -/
theorem wroteReg_retire {em : EMLatch} (s : State) (hwrite : em.regWrite = true) (hload : em.memRead = false) :
    WroteReg s (s.retire em) em.dest em.aluResult := by
  intro r
  simp [retire_reg, hwrite, hload]

/-- A jump in `EM` makes the program-counter multiplexer take the target (`40_datapath.md` R129). -/
theorem retire_pc_of_jump {em : EMLatch} (s : State) (hjump : em.jump = true) : (s.retire em).pc = em.target := by
  simp [pcNext, hjump]

/-! ### The unconditional transfers -/

/-- What Execute forms for jr and j (`40_datapath.md` R123): a jump that asks for nothing else. -/
def jumpLatch (target : Word) : EMLatch := { EMLatch.idle with jump := true, target := target }

/-- What Execute forms for jal (`42_control_transfer.md` R183): the jump of j, and the link as the ALU's result. -/
def linkLatch (link target : Word) : EMLatch := { EMLatch.result linkReg link with jump := true, target := target }

theorem exec_jr (rs rt rd : RegNum) (shamt : BitVec 5) (s : State) :
    exec (.jr rs rt rd shamt) s = .next (s.retire (jumpLatch (s.reg rs))) := rfl

theorem exec_j (target : BitVec 26) (s : State) :
    exec (.j target) s = .next (s.retire (jumpLatch (jumpTarget s.npc target))) := rfl

theorem exec_jal (target : BitVec 26) (s : State) :
    exec (.jal target) s = .next (s.retire (linkLatch s.npc (jumpTarget s.npc target))) := rfl

/-- An instruction that retires a jump and nothing else goes to the jump's target. -/
theorem goesTo_of_jump {i : Instr} {target : State → Word}
    (hexec : ∀ s, exec i s = .next (s.retire (jumpLatch (target s)))) : GoesTo i target :=
  fun s => ⟨_, hexec s, sameRegs_retire s rfl, retire_pc_of_jump s rfl, retire_halted s _, sameMem_retire s rfl,
    sameRest_retire s _⟩

/-- Settles O22: jr's row, and a jump to the register's value. -/
theorem jrGoesToTheRegister : Obligations.JrGoesToTheRegister :=
  ⟨selectedBy_of_mem (row := ⟨.jr, maskFunct, 0x00000008#32⟩) (by decide),
    fun rs rt rd shamt => goesTo_of_jump (exec_jr rs rt rd shamt)⟩

/-- Settles O23: j's row, and a jump to the target that `jumpTarget` forms. -/
theorem jGoesToTheTarget : Obligations.JGoesToTheTarget :=
  ⟨selectedBy_of_mem (row := ⟨.j, maskOpcode, 0x08000000#32⟩) (by decide),
    fun target => goesTo_of_jump (exec_j target)⟩

/-- Settles O24: jal's row; the link is the ALU's result, which WriteBack commits to register 31. -/
theorem jalLinksAndGoes : Obligations.JalLinksAndGoes := by
  refine ⟨selectedBy_of_mem (row := ⟨.jal, maskOpcode, 0x0C000000#32⟩) (by decide), fun target s => ?_⟩
  exact ⟨_, exec_jal target s, wroteReg_retire s rfl rfl, retire_pc_of_jump s rfl, retire_halted s _,
    sameMem_retire s rfl, sameRest_retire s _⟩

/-! ### The branches -/

/-- An instruction that branches on a condition goes to the branch target where it holds, and otherwise on. -/
theorem goesTo_of_branchIf {i : Instr} {imm : BitVec 16} {taken : State → Bool} {cond : State → Prop}
    [DecidablePred cond] (hexec : ∀ s, exec i s = branchIf (taken s) imm s)
    (hcond : ∀ s, taken s = true ↔ cond s) :
    GoesTo i fun s => if cond s then s.pc + 4#32 + (sext32 imm <<< 2) else s.pc + 4#32 := by
  intro s
  obtain ⟨t, ht, hregs, hpc, hmem, hhalted, hrest⟩ := branchIf_spec (taken s) imm s
  have hsame : SameMem s t := fun a => by rw [State.dmem, hmem, State.dmem]
  exact ⟨t, (hexec s).trans ht, hregs, hpc.trans (if_congr (hcond s) rfl rfl), hhalted, hsame, hrest⟩

theorem takenEq_iff {a b : Word} : takenEq a b = true ↔ a = b := beq_iff_eq

theorem takenNe_iff {a b : Word} : takenNe a b = true ↔ a ≠ b := bne_iff_ne

/-- Settles O25: both rows, and the two conditions on all 32 bits. -/
theorem beqAndBneBranch : Obligations.BeqAndBneBranch := by
  refine ⟨selectedBy_of_mem (row := ⟨.beq, maskOpcode, 0x10000000#32⟩) (by decide),
    selectedBy_of_mem (row := ⟨.bne, maskOpcode, 0x14000000#32⟩) (by decide), fun rs rt imm => ⟨?beq, ?bne⟩⟩
  case beq => exact goesTo_of_branchIf (fun _ => rfl) fun _ => takenEq_iff
  case bne => exact goesTo_of_branchIf (fun _ => rfl) fun _ => takenNe_iff

end Sys2Proof.Machine
end

section
/-! PROOFS. The immediate ALU instructions (`43_immediate_alu.md` R201 to R203, R205 to R208): each is a row of the
opcode table that takes the extended immediate as operand B and writes `rt`. -/

namespace Sys2Proof.Machine

/-- Settles O17: both words select a row whose ALU operation is the wrapping sum with the sign-extended immediate. -/
theorem addiAndAddiuAddTheSignedImmediate : Obligations.AddiAndAddiuAddTheSignedImmediate := by
  refine ⟨selectedBy_of_mem (row := ⟨.addi, maskOpcode, 0x20000000#32⟩) (by decide),
    selectedBy_of_mem (row := ⟨.addiu, maskOpcode, 0x24000000#32⟩) (by decide), fun rs rt imm => ⟨?addi, ?addiu⟩⟩
  case addi => exact setsReg_of_aluToReg .add (·.reg rs) (fun _ => sext32 imm) (fun _ => rfl) fun _ => rfl
  case addiu => exact setsReg_of_aluToReg .add (·.reg rs) (fun _ => sext32 imm) (fun _ => rfl) fun _ => rfl

/-- Settles O18: the ALU's signed comparison is that of register and sign-extended immediate as integers. -/
theorem sltiComparesAsSigned : Obligations.SltiComparesAsSigned := by
  refine ⟨selectedBy_of_mem (row := ⟨.slti, maskOpcode, 0x28000000#32⟩) (by decide), fun rs rt imm => ?_⟩
  exact setsReg_of_aluToReg .slt (·.reg rs) (fun _ => sext32 imm) (fun _ => rfl) fun _ => alu_slt _ _

/-- Settles O20: one row and one ALU operation, with the zero-extended immediate, for each of the three. -/
theorem bitwiseImmediatesZeroExtend : Obligations.BitwiseImmediatesZeroExtend := by
  refine ⟨selectedBy_of_mem (row := ⟨.andi, maskOpcode, 0x30000000#32⟩) (by decide),
    selectedBy_of_mem (row := ⟨.ori, maskOpcode, 0x34000000#32⟩) (by decide),
    selectedBy_of_mem (row := ⟨.xori, maskOpcode, 0x38000000#32⟩) (by decide), fun rs rt imm => ⟨?andi, ?ori, ?xori⟩⟩
  case andi => exact setsReg_of_aluToReg .and (·.reg rs) (fun _ => zext32 imm) (fun _ => rfl) fun _ => rfl
  case ori => exact setsReg_of_aluToReg .or (·.reg rs) (fun _ => zext32 imm) (fun _ => rfl) fun _ => rfl
  case xori => exact setsReg_of_aluToReg .xor (·.reg rs) (fun _ => zext32 imm) (fun _ => rfl) fun _ => rfl

/-- Whatever operand A holds, lui's ALU operation multiplies the immediate by `2^16`. -/
theorem alu_lui_zext32 (a : Word) (imm : BitVec 16) :
    alu .lui a (zext32 imm) = BitVec.ofNat 32 (imm.toNat * 2 ^ 16) :=
  BitVec.eq_of_toNat_eq (by rw [alu_lui_toNat, toNat_zext32, BitVec.toNat_ofNat])

/-- Settles O21: lui's row passes `x[rs]` to the ALU, whose result does not depend on it. -/
theorem luiLoadsTheUpperHalf : Obligations.LuiLoadsTheUpperHalf := by
  refine ⟨selectedBy_of_mem (row := ⟨.lui, maskOpcode, 0x3C000000#32⟩) (by decide), fun rs rt imm => ?_⟩
  exact setsReg_of_aluToReg .lui (·.reg rs) (fun _ => zext32 imm) (fun _ => rfl) fun _ => alu_lui_zext32 _ imm

end Sys2Proof.Machine
end

section
/-! PROOFS. The load and the store (`44_load_store.md` R220 to R222): each is a row of the opcode table; lw writes one
register with the cell that the effective address names, and sw writes that cell. -/

namespace Sys2Proof.Machine

/-- With a load and a register write in `EM`, WriteBack commits the cell at the ALU's result (`40_datapath.md` R126,
R133). -/
theorem wroteReg_retire_of_load {em : EMLatch} (s : State) (hwrite : em.regWrite = true) (hload : em.memRead = true) :
    WroteReg s (s.retire em) em.dest (s.dmem em.aluResult) := by
  intro r
  simp [retire_reg, hwrite, hload, State.dmem]

/-- With a store in `EM`, the Memory stage writes the cell at the ALU's result and no other (`40_datapath.md` R127). -/
theorem wroteCell_retire {em : EMLatch} (s : State) (hstore : em.memWrite = true) :
    WroteCell s (s.retire em) em.aluResult em.storeData := by
  intro a
  simp [retire_dmem, hstore]

/-- With neither branch nor jump in `EM`, the program-counter multiplexer takes `pc + 4` (`40_datapath.md` R130). -/
theorem retire_pc_of_sequential {em : EMLatch} (s : State) (hbranch : em.branch = false) (hjump : em.jump = false) :
    (s.retire em).pc = s.pc + 4#32 := by
  simp [pcNext, hbranch, hjump, State.npc]

/-- What Execute forms for lw (`44_load_store.md` R221): the address as the ALU's result, and a load into `rt`. -/
def loadLatch (rt : RegNum) (ea : Word) : EMLatch := { EMLatch.result rt ea with memRead := true }

/-- What Execute forms for sw (`44_load_store.md` R222): the address as the ALU's result, and a store of `v`. -/
def storeLatch (ea v : Word) : EMLatch := { EMLatch.idle with aluResult := ea, memWrite := true, storeData := v }

theorem exec_lw (rs rt : RegNum) (imm : BitVec 16) (s : State) :
    exec (.lw rs rt imm) s = .next (s.retire (loadLatch rt (effectiveAddress s rs imm))) := rfl

theorem exec_sw (rs rt : RegNum) (imm : BitVec 16) (s : State) :
    exec (.sw rs rt imm) s = .next (s.retire (storeLatch (effectiveAddress s rs imm) (s.reg rt))) := rfl

/-- Settles O26: lw's row; the base is read before WriteBack, which commits the cell and discards it for `rt = 0`. -/
theorem lwLoadsTheCell : Obligations.LwLoadsTheCell := by
  refine ⟨selectedBy_of_mem (row := ⟨.lw, maskOpcode, 0x8C000000#32⟩) (by decide), fun rs rt imm s => ?_⟩
  exact ⟨_, exec_lw rs rt imm s, wroteReg_retire_of_load s rfl rfl, retire_pc_of_sequential s rfl rfl,
    retire_halted s _, sameMem_retire s rfl, sameRest_retire s _⟩

/-- Settles O27: sw's row; the Memory stage writes the one cell, and WriteBack writes nothing. -/
theorem swStoresTheCell : Obligations.SwStoresTheCell := by
  refine ⟨selectedBy_of_mem (row := ⟨.sw, maskOpcode, 0xAC000000#32⟩) (by decide), fun rs rt imm s => ⟨rfl, ?_⟩⟩
  exact ⟨_, exec_sw rs rt imm s, wroteCell_retire s rfl, sameRegs_retire s rfl, retire_pc_of_sequential s rfl rfl,
    retire_halted s _, sameRest_retire s _⟩

end Sys2Proof.Machine
end

section
/-! PROOFS. Decoder and encoder agree (`30_encoding.md` R81, R88, R95 to R97): each instruction is read back from its
word and each listed word from its instruction, and the decoder's dispatch is that of the opcode table. -/

namespace Sys2Proof

/-! ### Decode after encode -/

/-- The R-type constructors: an R-type word whose funct selects a row decodes to that row's instruction. -/
theorem decode_encodeR {op : Op} {mk : RegNum → RegNum → RegNum → BitVec 5 → Instr} {funct : BitVec 6}
    (hlookup : lookup 0#6 funct = some op)
    (hmk : ∀ w, instrOf op w = mk (rsOf w) (rtOf w) (rdOf w) (shamtOf w)) (rs rt rd : RegNum) (shamt : BitVec 5) :
    decode (encodeR rs rt rd shamt funct) = .ok (mk rs rt rd shamt) := by
  obtain ⟨hopcode, hrs, hrt, hrd, hshamt, hfunct⟩ := encodeR_fields rs rt rd shamt funct
  exact decode_ok_iff.mpr ⟨op, by rw [hopcode, hfunct, hlookup], by rw [hmk, hrs, hrt, hrd, hshamt]⟩

/-- The I-type constructors. -/
theorem decode_encodeI {op : Op} {mk : RegNum → RegNum → BitVec 16 → Instr} {opcode : BitVec 6}
    (hlookup : ∀ funct, lookup opcode funct = some op)
    (hmk : ∀ w, instrOf op w = mk (rsOf w) (rtOf w) (immOf w)) (rs rt : RegNum) (imm : BitVec 16) :
    decode (encodeI opcode rs rt imm) = .ok (mk rs rt imm) := by
  obtain ⟨hopcode, hrs, hrt, himm⟩ := encodeI_fields opcode rs rt imm
  exact decode_ok_iff.mpr ⟨op, by rw [hopcode, hlookup], by rw [hmk, hrs, hrt, himm]⟩

/-- The J-type constructors. -/
theorem decode_encodeJ {op : Op} {mk : BitVec 26 → Instr} {opcode : BitVec 6}
    (hlookup : ∀ funct, lookup opcode funct = some op) (hmk : ∀ w, instrOf op w = mk (targetOf w))
    (target : BitVec 26) : decode (encodeJ opcode target) = .ok (mk target) := by
  obtain ⟨hopcode, htarget⟩ := encodeJ_fields opcode target
  exact decode_ok_iff.mpr ⟨op, by rw [hopcode, hlookup], by rw [hmk, htarget]⟩

theorem decode_encode_syscall (code : BitVec 20) : decode (encode (.syscall code)) = .ok (.syscall code) := by
  obtain ⟨hopcode, hfunct, hcode⟩ := encode_syscall_fields code
  exact decode_ok_iff.mpr ⟨.syscall, by rw [hopcode, hfunct]; rfl, by rw [instrOf, hcode]⟩

/-- Settles O6: by the format of each instruction's word. -/
theorem decodeOfEncodeIsTheInstruction : Obligations.DecodeOfEncodeIsTheInstruction := by
  intro i
  cases i with
  | add rs rt rd shamt | addu rs rt rd shamt | sub rs rt rd shamt | subu rs rt rd shamt | and rs rt rd shamt
  | or rs rt rd shamt | xor rs rt rd shamt | nor rs rt rd shamt | slt rs rt rd shamt | sltu rs rt rd shamt
  | sll rs rt rd shamt | srl rs rt rd shamt | jr rs rt rd shamt =>
    exact decode_encodeR rfl (fun _ => rfl) rs rt rd shamt
  | syscall code => exact decode_encode_syscall code
  | j target | jal target => exact decode_encodeJ (fun _ => rfl) (fun _ => rfl) target
  | beq rs rt imm | bne rs rt imm | addi rs rt imm | addiu rs rt imm | slti rs rt imm | sltiu rs rt imm
  | andi rs rt imm | ori rs rt imm | xori rs rt imm | lui rs rt imm | lw rs rt imm | sw rs rt imm =>
    exact decode_encodeI (fun _ => rfl) (fun _ => rfl) rs rt imm

/-! ### Encode after decode -/

/-- A word that the lookup gives to a row is the word of that row's instruction with the word's own fields. -/
theorem encode_instrOf {op : Op} {w : Word} (hlookup : lookup (opcodeOf w) (functOf w) = some op) :
    encode (instrOf op w) = w := by
  obtain ⟨hopcode, hfunct⟩ := bits_of_lookup hlookup
  cases op with
  | add | addu | sub | subu | and | or | xor | nor | slt | sltu | sll | srl | jr =>
    exact (congrArg (encodeR _ _ _ _) (hfunct hopcode).symm).trans (encodeR_of_fields hopcode)
  | syscall => exact encode_syscall_of_fields hopcode (hfunct hopcode)
  | j | jal => exact (congrArg (encodeJ · _) hopcode.symm).trans (encodeJ_of_fields w)
  | beq | bne | addi | addiu | slti | sltiu | andi | ori | xori | lui | lw | sw =>
    exact (congrArg (encodeI · _ _ _) hopcode.symm).trans (encodeI_of_fields w)

/-- Settles O7: a word that decodes has a row, and the encoder puts its fields back where they stood. -/
theorem encodeOfDecodeIsTheWord : Obligations.EncodeOfDecodeIsTheWord := by
  intro w i hdecode
  obtain ⟨op, hlookup, rfl⟩ := decode_ok_iff.mp hdecode
  exact encode_instrOf hlookup

/-! ### The opcode table and the lookup -/

/-- A word matches a row of the table iff the lookup finds that row. -/
theorem and_mask_eq_pattern_iff_lookup {row : OpcodeRow} (hrow : row ∈ opcodeTable) {w : Word} :
    w &&& row.mask = row.pattern ↔ lookup (opcodeOf w) (functOf w) = some row.op :=
  (and_mask_eq_pattern_iff hrow w).trans lookup_eq_some_iff.symm

/-- Every mnemonic has its row (`30_encoding.md` R95). -/
theorem exists_row (op : Op) : ∃ row ∈ opcodeTable, row.op = op := by cases op <;> decide

/-- No mnemonic has two rows. -/
theorem row_eq_of_op_eq : ∀ r ∈ opcodeTable, ∀ r' ∈ opcodeTable, r.op = r'.op → r = r' := by decide

/-- The lookup finds nothing exactly for a word that matches no row (`30_encoding.md` R97). -/
theorem lookup_eq_none_iff {w : Word} :
    lookup (opcodeOf w) (functOf w) = none ↔ ∀ row ∈ opcodeTable, w &&& row.mask ≠ row.pattern := by
  constructor
  · intro hnone row hrow hmatch
    simp [(and_mask_eq_pattern_iff_lookup hrow).mp hmatch] at hnone
  · intro hno
    rw [Option.eq_none_iff_forall_ne_some]
    intro op hlookup
    obtain ⟨row, hrow, rfl⟩ := exists_row op
    exact hno row hrow ((and_mask_eq_pattern_iff_lookup hrow).mpr hlookup)

/-- Only a word of row `op` decodes to an instruction of that row. -/
theorem exists_decode_op_iff {w : Word} {op : Op} :
    (∃ i, decode w = .ok i ∧ i.op = op) ↔ lookup (opcodeOf w) (functOf w) = some op := by
  constructor
  · rintro ⟨i, hdecode, rfl⟩
    obtain ⟨op, hlookup, rfl⟩ := decode_ok_iff.mp hdecode
    rw [hlookup, instrOf_op]
  · exact fun hlookup => ⟨instrOf op w, decode_eq_instrOf_iff.mpr hlookup, instrOf_op op w⟩

/-- Settles O4: to match a row is to be looked up as it, and the lookup is a function. -/
theorem opcodeTableSelectsTheInstruction : Obligations.OpcodeTableSelectsTheInstruction := by
  refine ⟨rfl, fun row hrow w => (and_mask_eq_pattern_iff_lookup hrow).trans exists_decode_op_iff.symm, ?_⟩
  intro r hr r' hr' w hmatch hmatch'
  have hlookup := (and_mask_eq_pattern_iff_lookup hr).mp hmatch
  have hlookup' := (and_mask_eq_pattern_iff_lookup hr').mp hmatch'
  exact row_eq_of_op_eq r hr r' hr' (Option.some.inj (hlookup.symm.trans hlookup'))

/-- Settles O5: a rejected word is one that the lookup does not find; the two counts are over 64 values each. -/
theorem decoderRejectsExactlyTheUnlistedWords : Obligations.DecoderRejectsExactlyTheUnlistedWords := by
  refine ⟨fun w => ?_, by decide, by decide, fun opcode funct funct' h => lookup_of_opcode_ne funct funct' h⟩
  rw [decode_error_iff, and_iff_left rfl, lookup_eq_none_iff]

/-- Settles O9: each word is evaluated. -/
theorem sampleWordsDecode : Obligations.SampleWordsDecode := by
  refine ⟨?_, ?_, ?_, ?_, ?_, ?_, ?_⟩ <;> decide

/-! ### The fields bit by bit -/

/-- A bit of the field of `n` bits that stands from bit `lo` on (`30_encoding.md` R81). -/
theorem getLsbD_field (w : Word) {lo n k : Nat} (hk : k < n) :
    (w.extractLsb' lo n).getLsbD k = w.getLsbD (lo + k) := by
  rw [BitVec.getLsbD_extractLsb', decide_eq_true hk, Bool.true_and]

/-- A field that stands at the word's low end. -/
theorem getLsbD_lowField (w : Word) {n k : Nat} (hk : k < n) : (w.extractLsb' 0 n).getLsbD k = w.getLsbD k := by
  rw [getLsbD_field w hk, Nat.zero_add]

/-- Settles O1: each field is cut out where it stands. -/
theorem fieldsStandAtTheirBits : Obligations.FieldsStandAtTheirBits := by
  intro w k
  exact ⟨getLsbD_field w, getLsbD_field w, getLsbD_field w, getLsbD_field w, getLsbD_field w, getLsbD_lowField w,
    getLsbD_lowField w, getLsbD_lowField w⟩

end Sys2Proof
end

section
/-! PROOFS. The Step through the control table (`40_datapath.md` R119 to R125): every instruction retires the `EM` of
its row, so that what a Step does is read off the table's columns. With it, the Step is the Step of the five stages
(R142). -/

namespace Sys2Proof.Machine

/-! ### Execute is the control table -/

/-- The zero word is a sll, so the zero test gates no other row (`30_encoding.md` R92). -/
theorem ne_zero_of_lookup {op : Op} {w : Word} (hlookup : lookup (opcodeOf w) (functOf w) = some op)
    (hop : op ≠ .sll) : w ≠ 0#32 := by
  rintro rfl
  have hzero : lookup (opcodeOf 0#32) (functOf 0#32) = some .sll := rfl
  exact hop (Option.some.inj (hlookup.symm.trans hzero))

/-- Without a halt, an instruction retires its `EM` in the state it runs in. -/
theorem retire_of_no_halt (s : State) (em : EMLatch) :
    (.next ((s.haltIf false).retire em) : Result) = .next (s.retire em) := by
  rw [haltIf_false]

/-- The instruction of a listed word retires its row of the control table, and syscall sets `halted` by its test. -/
theorem exec_instrOf {op : Op} {w : Word} (hlookup : lookup (opcodeOf w) (functOf w) = some op) (s : State) :
    exec (instrOf op w) s =
      .next ((s.haltIf (op == .syscall && haltTest s)).retire (controlRow op (deOf s w s.npc) w)) := by
  cases op with
  | syscall => rfl
  | sll =>
    have hword : encode (.sll (rsOf w) (rtOf w) (rdOf w) (shamtOf w)) = w := encode_instrOf hlookup
    rw [instrOf, exec_sll, sllLatch, hword]
    exact (retire_of_no_halt s _).symm
  | srl =>
    have hgate : (w != 0#32) = true := bne_iff_ne.mpr (ne_zero_of_lookup hlookup (by decide))
    have hrow : controlRow .srl (deOf s w s.npc) w =
        EMLatch.result (rdOf w) (alu .srl (s.reg (rtOf w)) (shiftAmount (shamtOf w))) :=
      congrArg (fun b => { EMLatch.result (rdOf w) _ with regWrite := b }) hgate
    rw [hrow]
    exact (retire_of_no_halt s _).symm
  | add | addu | sub | subu | and | or | xor | nor | slt | sltu | jr | j | jal | beq | bne | addi | addiu | slti
  | sltiu | andi | ori | xori | lui | lw | sw =>
    exact (retire_of_no_halt s _).symm

/-- The lookup finds the row of an instruction's own word. -/
theorem lookup_encode (i : Instr) : lookup (opcodeOf (encode i)) (functOf (encode i)) = some i.op :=
  exists_decode_op_iff.mp ⟨i, decodeOfEncodeIsTheInstruction i, rfl⟩

/-- Every instruction retires its row of the control table, taken from its own word. -/
theorem exec_eq (i : Instr) (s : State) :
    exec i s = .next
      ((s.haltIf (i.op == .syscall && haltTest s)).retire (controlRow i.op (deOf s (encode i) s.npc) (encode i))) := by
  have hinstr : instrOf i.op (encode i) = i :=
    Except.ok.inj ((decode_eq_instrOf_iff.mpr (lookup_encode i)).symm.trans (decodeOfEncodeIsTheInstruction i))
  rw [← exec_instrOf (lookup_encode i), hinstr]

/-! ### The Step by what was fetched -/

section fetched
variable {s : State} {w : Word} (hrun : s.halted = false) (hfetch : fetch s = .ok w)
include hrun

theorem step_of_fetch_error {f : Fault} (hfetch : fetch s = .error f) : step s = .fault f := by
  simp [step, hrun, hfetch]

include hfetch

theorem step_of_fetch : step s = executeWord w (s.issue w) := by
  simp [step, hrun, hfetch]

/-- A listed word: `40_datapath.md` R119. -/
theorem step_of_decode {i : Instr} (hdecode : decode w = .ok i) : step s = exec i (s.issue w) := by
  rw [step_of_fetch hrun hfetch, executeWord, hdecode]

/-- A listed word, through the control table: `40_datapath.md` R123 to R125. -/
theorem step_of_lookup {op : Op} (hlookup : lookup (opcodeOf w) (functOf w) = some op) :
    step s = .next
      (((s.issue w).haltIf (op == .syscall && haltTest s)).retire (controlRow op (deOf s w s.npc) w)) :=
  (step_of_decode hrun hfetch (decode_eq_instrOf_iff.mpr hlookup)).trans (exec_instrOf hlookup (s.issue w))

/-- A word of no row: `45_system.md` R245, R246. -/
theorem step_of_unlisted (hlookup : lookup (opcodeOf w) (functOf w) = none) :
    step s = execUnlisted w (s.issue w) := by
  rw [step_of_fetch hrun hfetch, executeWord, decode_error_iff.mpr ⟨hlookup, rfl⟩]

theorem step_of_inert (hlookup : lookup (opcodeOf w) (functOf w) = none) (hpolicy : s.cfg.illegalPolicy = .inert) :
    step s = .next ((s.issue w).retire EMLatch.idle) := by
  rw [step_of_unlisted hrun hfetch hlookup, execUnlisted, issue_cfg, hpolicy]

theorem step_of_refuse (hlookup : lookup (opcodeOf w) (functOf w) = none)
    (hpolicy : s.cfg.illegalPolicy = .refuse) : step s = .fault (.unlisted w) := by
  rw [step_of_unlisted hrun hfetch hlookup, execUnlisted, issue_cfg, hpolicy]

end fetched

/-- Settles O34: the Step of a listed word; what `issue` writes and leaves is its definition. -/
theorem stepRunsTheDecodedInstruction : Obligations.StepRunsTheDecodedInstruction := by
  intro s w i hrun hfetch hdecode
  exact ⟨step_of_decode hrun hfetch hdecode, issue_fd s w, issue_de s w, issue_cycles s w, issue_cfg s w,
    issue_prog s w, issue_regs s w, issue_pc s w, issue_halted s w, issue_mem s w, issue_em s w, issue_mw s w⟩

/-- Settles O37: a word of no row, with the policy `refuse`. -/
theorem unlistedWordFaultsUnderRefuse : Obligations.UnlistedWordFaultsUnderRefuse := by
  intro s w hrun hfetch hno hpolicy
  exact step_of_refuse hrun hfetch (lookup_eq_none_iff.mpr hno) hpolicy

/-- Settles O36: a word of no row, with the policy `inert`, retires the latch of defaults. -/
theorem inertWordOnlyAdvances : Obligations.InertWordOnlyAdvances := by
  intro s w hrun hfetch hno hpolicy
  exact ⟨_, step_of_inert hrun hfetch (lookup_eq_none_iff.mpr hno) hpolicy, retire_pc_of_sequential _ rfl rfl,
    sameRegs_retire (s.issue w) rfl, sameMem_retire (s.issue w) rfl, (retire_halted _ _).trans hrun,
    retire_cycles _ _, retire_cfg _ _, retire_prog _ _, retire_em _ _⟩

/-! ### The five stages -/

/-- What Fetch and Decode leave (`40_datapath.md` R111, R114): the state of `issue`, before the cycle is counted. -/
def State.decoded (s : State) (w : Word) : State :=
  { s with
    fd := some { instr := w, npc := s.npc }
    de := some (deOf s w s.npc) }

/-- Decode after Fetch of `w`. -/
theorem decodeStage_fetched (s : State) (w : Word) :
    decodeStage { s with fd := some { instr := w, npc := s.pc + 4#32 } } = s.decoded w := rfl

section datapath
variable {s : State} (hrun : s.halted = false)
include hrun

theorem datapathStep_of_fetch_error {f : Fault} (hfetch : fetch s = .error f) : datapathStep s = .fault f := by
  rw [fetch] at hfetch
  simp [datapathStep, hrun, fetchStage, hfetch]

variable {w : Word} (hfetch : fetch s = .ok w)
include hfetch

theorem datapathStep_of_execute_error {f : Fault} (hexecute : executeStage (s.decoded w) = .error f) :
    datapathStep s = .fault f := by
  rw [fetch] at hfetch
  rw [datapathStep, if_neg (Bool.eq_false_iff.mp hrun)]
  simp only [fetchStage, hfetch, decodeStage_fetched, hexecute]

theorem datapathStep_of_execute {t : State} (hexecute : executeStage (s.decoded w) = .ok t) :
    datapathStep s = .next { writeBackStage (memStage t) with cycles := s.cycles + 1 } := by
  rw [fetch] at hfetch
  rw [datapathStep, if_neg (Bool.eq_false_iff.mp hrun)]
  simp only [fetchStage, hfetch, decodeStage_fetched, hexecute]

end datapath

section executeStage
variable (s : State) {w : Word}

/-- Execute of a listed word writes its row of the control table and makes the halt test (R119, R123, R125). -/
theorem executeStage_of_lookup {op : Op} (hlookup : lookup (opcodeOf w) (functOf w) = some op) :
    executeStage (s.decoded w) = .ok { (s.decoded w).haltIf (op == .syscall && haltTest s) with
      em := some (controlRow op (deOf s w s.npc) w) } := by
  have hlookup' : lookup (deOf s w s.npc).opcode (deOf s w s.npc).funct = some op := hlookup
  simp only [executeStage, State.decoded, hlookup']
  rfl

variable (hlookup : lookup (opcodeOf w) (functOf w) = none)
include hlookup

theorem executeStage_of_inert (hpolicy : s.cfg.illegalPolicy = .inert) :
    executeStage (s.decoded w) = .ok { s.decoded w with em := some EMLatch.idle } := by
  have hlookup' : lookup (deOf s w s.npc).opcode (deOf s w s.npc).funct = none := hlookup
  simp only [executeStage, State.decoded, hlookup', hpolicy]

theorem executeStage_of_refuse (hpolicy : s.cfg.illegalPolicy = .refuse) :
    executeStage (s.decoded w) = .error (.unlisted w) := by
  have hlookup' : lookup (deOf s w s.npc).opcode (deOf s w s.npc).funct = none := hlookup
  simp only [executeStage, State.decoded, hlookup', hpolicy]

end executeStage

/-- The write port's WriteBack is the register write gated by `regWrite` and by register 0 (R117, R133). -/
theorem writeBackStage_eq {s : State} {mw : MWLatch} (hmw : s.mw = some mw) : writeBackStage s = s.writeBack mw := by
  simp only [writeBackStage, hmw, writePortOf, State.writeBack, State.setReg, MWLatch.value]
  by_cases hwrite : mw.regWrite = true <;> by_cases hdest : mw.dest = 0#5 <;> simp [hwrite, hdest]

/-- The cycle count takes no part in WriteBack. -/
theorem writeBack_withCycles (s : State) (mw : MWLatch) (n : Nat) :
    { s.writeBack mw with cycles := n } = ({ s with cycles := n } : State).writeBack mw := by
  unfold State.writeBack State.setReg
  split
  · split <;> rfl
  · rfl

/-- The Memory stage of the datapath, with the sequential next pc in `FD` (R126 to R132). -/
theorem memStage_eq {s : State} {fd : FDLatch} {em : EMLatch} (hfd : s.fd = some fd) (hem : s.em = some em) :
    memStage s = s.memoryStage em fd.npc := by
  simp only [memStage, hfd, hem, State.memoryStage]
  rfl

/-- The last two stages retire what stands in `EM`, whenever the cycle is counted (R126 to R133). -/
theorem backEnd_eq {s : State} {fd : FDLatch} {em : EMLatch} (n : Nat) (hfd : s.fd = some fd) (hem : s.em = some em)
    (hnpc : fd.npc = s.npc) :
    { writeBackStage (memStage s) with cycles := n } = State.retire { s with cycles := n } em := by
  rw [memStage_eq hfd hem, writeBackStage_eq (memoryStage_mw s em fd.npc), writeBack_withCycles, hnpc]
  rfl

/-- Settles O59: fetch, then Execute by the lookup's answer, then the two stages that retire. -/
theorem stepIsTheFiveStageDatapath : Obligations.StepIsTheFiveStageDatapath := by
  intro s
  cases hrun : s.halted with
  | true => rw [haltedStepDoesNothing s hrun, datapathStep, if_pos hrun]
  | false =>
    cases hfetch : fetch s with
    | error f => rw [step_of_fetch_error hrun hfetch, datapathStep_of_fetch_error hrun hfetch]
    | ok w =>
      cases hlookup : lookup (opcodeOf w) (functOf w) with
      | some op =>
        rw [step_of_lookup hrun hfetch hlookup,
          datapathStep_of_execute hrun hfetch (executeStage_of_lookup s hlookup), backEnd_eq _ rfl rfl rfl]
        rfl
      | none =>
        cases hpolicy : s.cfg.illegalPolicy with
        | inert =>
          rw [step_of_inert hrun hfetch hlookup hpolicy,
            datapathStep_of_execute hrun hfetch (executeStage_of_inert s hlookup hpolicy), backEnd_eq _ rfl rfl rfl]
          rfl
        | refuse =>
          rw [step_of_refuse hrun hfetch hlookup hpolicy,
            datapathStep_of_execute_error hrun hfetch (executeStage_of_refuse s hlookup hpolicy)]

end Sys2Proof.Machine
end

section
/-! PROOFS. The halt and the invariant: a Step halts only in a syscall that finds 10 in register 2 (`40_datapath.md`
R125), and what reset establishes every Step keeps (`10_state.md` R21, R37; `40_datapath.md` R116, R128, R132, R135;
`60_exceptions.md` R264). -/

namespace Sys2Proof.Machine

/-- What boot answers, if it does (`10_state.md` R37, R38). -/
theorem boot_next {c : Config} {prog data : List Word} {s : State} (h : boot c prog data = .next s) :
    c.wf prog.length data.length = true ∧ s = State.loaded c prog data := by
  unfold boot at h
  split at h
  case isTrue hwf => exact ⟨hwf, (Host.Outcome.next.inj h).symm⟩
  case isFalse => cases h

/-! ### The halting Step -/

/-- A Step entered running halts exactly when its word is a syscall and the test holds. -/
theorem step_halts_iff {s t : State} (hrun : s.halted = false) (h : step s = .next t) :
    t.halted = true ↔ ∃ w, fetch s = .ok w ∧ lookup (opcodeOf w) (functOf w) = some .syscall ∧ haltTest s = true := by
  obtain ⟨hhalted, -⟩ | ⟨-, w, halts, em, hfetch, rfl, hhalts, -⟩ := step_next h
  · simp [hrun] at hhalted
  · rw [retire_halted, haltIf_halted, issue_halted, hrun, Bool.false_or, hhalts]
    constructor
    · exact fun hsyscall => ⟨w, hfetch, hsyscall⟩
    · rintro ⟨w', hfetch', hsyscall⟩
      obtain rfl : w' = w := Except.ok.inj (hfetch'.symm.trans hfetch)
      exact hsyscall

/-- The Step that halts sets the flag and retires the latch of defaults (`45_system.md` R241, R242). -/
theorem eq_of_step_halts {s t : State} (hrun : s.halted = false) (h : step s = .next t) (hhalt : t.halted = true) :
    ∃ w, lookup (opcodeOf w) (functOf w) = some .syscall ∧ haltTest s = true ∧
      t = ((s.issue w).haltIf true).retire EMLatch.idle := by
  obtain ⟨w, hfetch, hlookup, htest⟩ := (step_halts_iff hrun h).mp hhalt
  have hstep := step_of_lookup hrun hfetch hlookup
  rw [htest, h] at hstep
  exact ⟨w, hlookup, htest, Host.Outcome.next.inj hstep⟩

/-- Settles O40: a halted machine stays, a running one halts in the halting syscall alone, and boot resets the flag. -/
theorem onlyTheHaltingSyscallHalts : Obligations.OnlyTheHaltingSyscallHalts := by
  refine ⟨fun s t h => ?step, fun c prog data s h => ?boot⟩
  case step =>
    have hsyscall (w : Word) :
        w &&& 0xFC00003F#32 = 0x0000000C#32 ↔ lookup (opcodeOf w) (functOf w) = some .syscall :=
      and_mask_eq_pattern_iff_lookup (row := ⟨.syscall, maskFunct, 0x0000000C#32⟩) (by decide)
    have htest : haltTest s = true ↔ s.reg 2#5 = 10#32 := beq_iff_eq
    cases hrun : s.halted with
    | true =>
      obtain rfl : s = t := Host.Outcome.next.inj ((haltedStepDoesNothing s hrun).symm.trans h)
      simp [hrun]
    | false => simp only [step_halts_iff hrun h, hsyscall, htest, Bool.false_eq_true, false_or]
  case boot =>
    obtain ⟨-, rfl⟩ := boot_next h
    rfl

/-! ### The invariant -/

theorem inv_iff {s : State} :
    s.inv = true ↔ s.cfg.baseAligned = true ∧ s.cfg.imageFits s.prog.length = true ∧ Memory.wf s.mem = true ∧
      s.regs[0] = 0#32 ∧ s.latchesOk = true ∧ s.haltOk = true := by
  simp [State.inv, and_assoc]

@[simp] theorem deOf_npc (s : State) (w npc : Word) : (deOf s w npc).npc = npc := rfl

@[simp] theorem pcNext_idle (seq : Word) : pcNext EMLatch.idle seq = seq := rfl

@[simp] theorem holdsFieldsOf_deOf (s : State) (w npc : Word) : (deOf s w npc).holdsFieldsOf w = true := by
  simp [DELatch.holdsFieldsOf, deOf]

/-- The latches after an instruction: `issue` wrote the first two from one word, and `MW` is `EM`'s. -/
theorem latchesOk_retire_issue (s : State) (w : Word) (halts : Bool) {em : EMLatch}
    (hdata : (em.memRead && em.memWrite) = false) (htransfer : (em.branch && em.jump) = false) :
    (((s.issue w).haltIf halts).retire em).latchesOk = true := by
  have hload : em.memRead = true ∨ loadData em s.mem = 0#32 := by cases hread : em.memRead <;> simp [loadData, hread]
  simpa [State.latchesOk, hdata, htransfer, mwOf] using hload

/-- A Step entered running leaves a machine that is running, or that stands after its halting syscall. -/
theorem haltOk_of_step {s t : State} (hrun : s.halted = false) (h : step s = .next t) : t.haltOk = true := by
  cases hhalt : t.halted with
  | false => simp [State.haltOk, hhalt]
  | true =>
    obtain ⟨w, hlookup, htest, rfl⟩ := eq_of_step_halts hrun h hhalt
    have hkeep : haltTest (((s.issue w).haltIf true).retire EMLatch.idle) = haltTest s :=
      congrArg (· == haltCode) (sameRegs_retire ((s.issue w).haltIf true) rfl haltReg)
    simp [State.haltOk, hlookup, hkeep, htest]

/-- Settles O58: part by part, for the one thing that a Step entered running can do. -/
theorem everyStepKeepsTheInvariant : Obligations.EveryStepKeepsTheInvariant := by
  intro s t hinv h
  obtain ⟨-, rfl⟩ | ⟨hrun, w, halts, em, -, rfl, -, hdata, htransfer⟩ := step_next h
  · exact hinv
  · obtain ⟨halign, hfits, hmem, hslot, -, -⟩ := inv_iff.mp hinv
    refine inv_iff.mpr ⟨?_, ?_, ?_, ?_, latchesOk_retire_issue s w halts hdata htransfer, haltOk_of_step hrun h⟩
    · rwa [step_keeps_cfg h]
    · rwa [step_keeps_cfg h, step_keeps_prog h]
    · rw [retire_mem]
      exact storeTo_wf em hmem
    · rw [retire_slot0]
      exact hslot

/-- Settles O57: boot answers only under a legal configuration, with the latches empty and the flag clear. -/
theorem invariantHoldsAfterBoot : Obligations.InvariantHoldsAfterBoot := by
  intro c prog data s h
  obtain ⟨hwf, rfl⟩ := boot_next h
  obtain ⟨⟨halign, hfits⟩, -⟩ : (c.baseAligned = true ∧ c.imageFits prog.length = true) ∧ _ := by
    simpa [Config.wf] using hwf
  exact inv_iff.mpr ⟨halign, hfits, loadImage_wf c.dmemBase data rfl, rfl, rfl, rfl⟩

/-- Settles O56: the reset state is what boot answers for the default configuration and empty images. -/
theorem invariantHoldsAtReset : Obligations.InvariantHoldsAtReset :=
  invariantHoldsAfterBoot Config.default [] [] State.reset rfl

end Sys2Proof.Machine
end

section
/-! PROOFS. Reset, load and fetch: what the fetch port delivers (`20_memory.md` R51 to R53), what boot refuses and what
it leaves (`10_state.md` R37, R38), and that a placed word is the one fetched. -/

namespace Sys2Proof.Machine

/-! ### The fetch port -/

section imem
variable {c : Config} (prog : List Word) {a : Word}

theorem imem_of_misaligned (hpolicy : c.misalignedFetch = .fault) (ha : a.toNat % 4 ≠ 0) :
    imem c prog a = .error (.misalignedFetch a) := if_pos ⟨hpolicy, ha⟩

variable (hok : c.misalignedFetch = .truncate ∨ a.toNat % 4 = 0)
include hok

/-- Where the misaligned check lets an address pass (R53), the port delivers as R51 and R52 say. -/
theorem imem_of_passed : imem c prog a =
    if a.toNat < c.imemBase.toNat then .ok 0#32 else .ok (prog.getD (imageIndex c.imemBase a) 0#32) := by
  refine if_neg ?_
  rintro ⟨hpolicy, ha⟩
  rcases hok with htruncate | haligned
  · simp [hpolicy] at htruncate
  · exact ha haligned

theorem imem_of_below (hlt : a.toNat < c.imemBase.toNat) : imem c prog a = .ok 0#32 :=
  (imem_of_passed prog hok).trans (if_pos hlt)

theorem imem_of_above (hle : c.imemBase.toNat ≤ a.toNat) :
    imem c prog a = .ok (prog.getD ((a.toNat - c.imemBase.toNat) / 4) 0#32) :=
  (imem_of_passed prog hok).trans (if_neg (Nat.not_lt.mpr hle))

end imem

/-- Settles O32: misaligned, below, in the image, past its end. -/
theorem fetchPortDelivers : Obligations.FetchPortDelivers := by
  intro c prog a
  refine ⟨imem_of_misaligned prog, fun hok => ⟨imem_of_below prog hok, fun hle =>
    ⟨fun hin => ?inside, fun hout => ?past⟩⟩⟩
  case inside => rw [imem_of_above prog hok hle, List.getD_eq_getElem prog _ hin]
  case past => rw [imem_of_above prog hok hle, List.getD_eq_default prog _ hout]

/-! ### Placing a word -/

theorem placeWord_getD (prog : List Word) (k : Nat) (w : Word) : (placeWord prog k w).getD k 0#32 = w := by
  induction k generalizing prog with
  | zero => cases prog <;> rfl
  | succ k ih =>
    cases prog with
    | nil => exact ih []
    | cons x rest => exact ih rest

theorem alignDown_aligned (a : Word) : (alignDown a).toNat % 4 = 0 := by
  have hmod : (a.toNat &&& 0xFFFFFFFC) % 2 ^ 2 = a.toNat % 2 ^ 2 &&& 0xFFFFFFFC % 2 ^ 2 := Nat.and_mod_two_pow
  simpa [alignDown] using hmod

theorem pcFetchable_iff {s : State} : pcFetchable s = true ↔
    s.cfg.imemBase.toNat ≤ s.pc.toNat ∧ (s.cfg.misalignedFetch = .truncate ∨ s.pc.toNat % 4 = 0) := by
  cases hpolicy : s.cfg.misalignedFetch <;> simp [pcFetchable, hpolicy]

/-- The placed word is what the fetch port delivers at the pc, whichever way it was placed. -/
theorem fetch_placeFetch (s : State) (w : Word) : fetch (s.placeFetch w) = .ok w := by
  unfold State.placeFetch
  split
  case isTrue hfetchable =>
    obtain ⟨hle, hok⟩ := pcFetchable_iff.mp hfetchable
    exact (imem_of_above _ hok hle).trans (congrArg _ (placeWord_getD s.prog _ w))
  case isFalse =>
    have hbase : ((alignDown s.pc).toNat - (alignDown s.pc).toNat) / 4 = 0 := by simp
    refine (imem_of_above [w] (.inr (alignDown_aligned s.pc)) le_rfl).trans ?_
    rw [hbase]
    rfl

/-- Placing a word sets the machine running and touches only the pc, the base and the image. -/
theorem placeFetch_keeps (s : State) (w : Word) :
    (s.placeFetch w).halted = false ∧ (s.placeFetch w).regs = s.regs ∧ (s.placeFetch w).mem = s.mem ∧
      (s.placeFetch w).cycles = s.cycles ∧ (s.placeFetch w).fd = s.fd ∧ (s.placeFetch w).de = s.de ∧
      (s.placeFetch w).em = s.em ∧ (s.placeFetch w).mw = s.mw := by
  unfold State.placeFetch
  split <;> exact ⟨rfl, rfl, rfl, rfl, rfl, rfl, rfl, rfl⟩

/-- Settles O33: the host's number, reduced to 32 bits, is the word placed. -/
theorem wordPlacedIsFetchedNext : Obligations.WordPlacedIsFetchedNext := by
  intro s w
  have hword : s.withFetchWord 32 w = s.placeFetch (BitVec.ofNat 32 w) :=
    congrArg s.placeFetch (BitVec.eq_of_toNat_eq (by simp))
  rw [hword]
  exact ⟨fetch_placeFetch s _, placeFetch_keeps s _⟩

/-! ### What boot refuses -/

/-- The constraints of `10_state.md` R37. -/
theorem wf_iff {c : Config} {n m : Nat} :
    c.wf n m = true ↔ c.imemBase.toNat % 4 = 0 ∧ c.imemBase.toNat + 4 * n ≤ 2 ^ 32 ∧ m ≤ 2 ^ 30 ∧
      c.dmemBase.toNat + 4 * m ≤ 2 ^ 32 := by
  simp only [Config.wf, Config.baseAligned, Config.imageFits, Config.dataFits, Bool.and_eq_true, beq_iff_eq,
    decide_eq_true_eq, and_assoc]

/-- Settles O30: boot answers for the legal configurations and refuses the others. -/
theorem illegalConfigurationIsRefused : Obligations.IllegalConfigurationIsRefused := by
  intro c prog data
  rw [← wf_iff, boot]
  split
  case isTrue hwf => simp [hwf]
  case isFalse hwf => simp [hwf]

/-! ### What boot leaves -/

/-- Words at a 4-byte stride that fit in the address space do not wrap. -/
theorem toNat_add_stride {a : Word} {k n : Nat} (hfits : a.toNat + 4 * n ≤ 2 ^ 32) (hk : k < n) :
    (a + BitVec.ofNat 32 (4 * k)).toNat = a.toNat + 4 * k := by
  rw [BitVec.toNat_add, BitVec.toNat_ofNat]
  omega

/-- Word `k` of a legal image is fetched at `IMEM_BASE + 4*k` (`20_memory.md` R51). -/
theorem imem_at_word {c : Config} {prog : List Word} (halign : c.imemBase.toNat % 4 = 0)
    (hfits : c.imemBase.toNat + 4 * prog.length ≤ 2 ^ 32) {k : Nat} (hk : k < prog.length) :
    imem c prog (c.imemBase + BitVec.ofNat 32 (4 * k)) = .ok prog[k] := by
  have haddr := toNat_add_stride hfits hk
  have hindex : (c.imemBase.toNat + 4 * k - c.imemBase.toNat) / 4 = k := by omega
  rw [imem_of_above prog (.inr (by omega)) (by omega), haddr, hindex, List.getD_eq_getElem prog _ hk]

/-- Four addresses on, the stride's next index (`20_memory.md` R64). -/
theorem add_four_add_stride (a : Word) (j : Nat) :
    a + 4#32 + BitVec.ofNat 32 (4 * j) = a + BitVec.ofNat 32 (4 * (j + 1)) := by
  bv_omega

/-- A cell that no word of the image is loaded into keeps its contents. -/
theorem read_loadImage_of_ne {m : Memory} {a b : Word} {data : List Word}
    (hne : ∀ j < data.length, b ≠ a + BitVec.ofNat 32 (4 * j)) :
    Memory.read (loadImage m a data) b = Memory.read m b := by
  induction data generalizing m a with
  | nil => rfl
  | cons v rest ih =>
    have hhead : b ≠ a := by simpa using hne 0 (by simp)
    rw [loadImage, ih fun j hj => ?_, Memory.read_write, if_neg hhead]
    rw [add_four_add_stride]
    exact hne (j + 1) (by simpa using hj)

/-- Word `j` of a data image of at most `2^30` words is in cell `DMEM_BASE + 4*j`: no later word overwrites it. -/
theorem read_loadImage_at {m : Memory} {a : Word} {data : List Word} (hlen : data.length ≤ 2 ^ 30) {j : Nat}
    (hj : j < data.length) : Memory.read (loadImage m a data) (a + BitVec.ofNat 32 (4 * j)) = data[j] := by
  induction data generalizing m a j with
  | nil => simp at hj
  | cons v rest ih =>
    rw [List.length_cons] at hlen hj
    cases j with
    | zero =>
      have hlater : ∀ j < rest.length, a ≠ a + 4#32 + BitVec.ofNat 32 (4 * j) := by
        intro j hj'
        bv_omega
      simp [loadImage, read_loadImage_of_ne hlater, Memory.read_write]
    | succ j =>
      rw [loadImage, ← add_four_add_stride]
      exact ih (by omega) (by omega)

theorem resetWith_reg (c : Config) (r : RegNum) : (State.resetWith c).reg r = 0#32 := by
  simp [State.reg, State.resetWith]

/-- Settles O29: the registers, flags and latches by reset, and the two images word by word. -/
theorem bootLeavesTheResetState : Obligations.BootLeavesTheResetState := by
  intro c prog data halign himage hlen hdata
  have hboot : boot c prog data = .next (State.loaded c prog data) := if_pos (wf_iff.mpr ⟨halign, himage, hlen, hdata⟩)
  exact ⟨_, hboot, rfl, rfl, resetWith_reg c, rfl, rfl, rfl, rfl, rfl, rfl, rfl,
    fun k hk => imem_at_word halign himage hk, fun j hj => read_loadImage_at hlen hj,
    fun a hne => (read_loadImage_of_ne hne).trans (Memory.read_nil a)⟩

/-- Settles O31: by evaluation; every register by what reset leaves. -/
theorem resetIsBootOfTheDefaults : Obligations.ResetIsBootOfTheDefaults :=
  ⟨rfl, rfl, rfl, rfl, rfl, resetWith_reg Config.default⟩

end Sys2Proof.Machine
end

section
/-! PROOFS. What a Step changes and when it has no next state: the cycle count (`40_datapath.md` R138), the one register
and the one cell (`30_encoding.md` R90, `20_memory.md` R57), the fetch outside the image (R52), and the two faults
(`60_exceptions.md` R273). -/

namespace Sys2Proof.Machine

/-! ### The faults -/

/-- Fetch fails in one way only (`20_memory.md` R53). -/
theorem fetch_error_iff {s : State} {f : Fault} :
    fetch s = .error f ↔ s.cfg.misalignedFetch = .fault ∧ s.pc.toNat % 4 ≠ 0 ∧ f = .misalignedFetch s.pc := by
  unfold fetch imem
  split
  case isTrue hmis => simp [hmis, eq_comm]
  case isFalse hpass =>
    have hno : ¬ (s.cfg.misalignedFetch = .fault ∧ s.pc.toNat % 4 ≠ 0 ∧ f = .misalignedFetch s.pc) :=
      fun ⟨hpolicy, hpc, _⟩ => hpass ⟨hpolicy, hpc⟩
    split <;> simp only [hno, reduceCtorEq]

/-- A Step faults at the fetch, or on a word of no row that the policy refuses. -/
theorem step_fault_iff {s : State} {f : Fault} :
    step s = .fault f ↔ s.halted = false ∧ (fetch s = .error f ∨
      ∃ w, fetch s = .ok w ∧ lookup (opcodeOf w) (functOf w) = none ∧ s.cfg.illegalPolicy = .refuse ∧
        f = .unlisted w) := by
  constructor
  · intro h
    obtain ⟨-, hstep⟩ | ⟨hrun, f', hfetch, hstep⟩ | ⟨hrun, w, hfetch, hlookup, hpolicy, hstep⟩ |
      ⟨-, w, halts, em, -, hstep, -⟩ := step_cases s
    all_goals rw [hstep] at h; cases h
    · exact ⟨hrun, .inl hfetch⟩
    · exact ⟨hrun, .inr ⟨w, hfetch, hlookup, hpolicy, rfl⟩⟩
  · rintro ⟨hrun, hfetch | ⟨w, hfetch, hlookup, hpolicy, rfl⟩⟩
    · exact step_of_fetch_error hrun hfetch
    · exact step_of_refuse hrun hfetch hlookup hpolicy

theorem step_ne_refused (s : State) (r : Refusal) : step s ≠ .refused r := by
  obtain ⟨-, hstep⟩ | ⟨-, f, -, hstep⟩ | ⟨-, w, -, -, -, hstep⟩ | ⟨-, w, halts, em, -, hstep, -⟩ := step_cases s
  all_goals simp [hstep]

theorem run_of_fault {s : State} {f : Fault} (fuel : Nat) (h : step s = .fault f) : run (fuel + 1) s = .fault f := by
  obtain ⟨hrun, -⟩ := step_fault_iff.mp h
  simp [run, hrun, h]

/-- Settles O41: the two faults of `step_fault_iff`, the second only under `refuse`. -/
theorem stepFaultsExactlyAsConfigured : Obligations.StepFaultsExactlyAsConfigured := by
  refine ⟨fun s f => ?faults, fun s w hinert h => ?inert, step_ne_refused, fun s f fuel h => run_of_fault fuel h⟩
  case faults => simp only [step_fault_iff, fetch_error_iff, lookup_eq_none_iff]
  case inert =>
    obtain ⟨-, hfetch | ⟨w', -, -, hrefuse, -⟩⟩ := step_fault_iff.mp h
    · obtain ⟨-, -, hne⟩ := fetch_error_iff.mp hfetch
      cases hne
    · simp [hinert] at hrefuse

/-! ### The cycle count -/

/-- Settles O42: the count is `issue`'s, and no stage after it touches the count. -/
theorem eachRunningStepCountsOneCycle : Obligations.EachRunningStepCountsOneCycle := by
  intro s t h
  obtain ⟨hhalted, rfl⟩ | ⟨hrun, w, halts, em, -, rfl, -⟩ := step_next h
  · rw [if_pos hhalted]
  · rw [hrun, retire_cycles, haltIf_cycles, issue_cycles]
    rfl

/-! ### The one register and the one cell -/

/-- A Step that changes a state retires the word's row of the control table, or for a word of no row the defaults. -/
theorem step_next_row {s t : State} {w : Word} (hrun : s.halted = false) (hfetch : fetch s = .ok w)
    (h : step s = .next t) :
    (∃ op, lookup (opcodeOf w) (functOf w) = some op ∧
      t = ((s.issue w).haltIf (op == .syscall && haltTest s)).retire (controlRow op (deOf s w s.npc) w)) ∨
    t = (s.issue w).retire EMLatch.idle := by
  cases hlookup : lookup (opcodeOf w) (functOf w) with
  | some op =>
    exact .inl ⟨op, rfl, Host.Outcome.next.inj (h.symm.trans (step_of_lookup hrun hfetch hlookup))⟩
  | none =>
    cases hpolicy : s.cfg.illegalPolicy with
    | inert => exact .inr (Host.Outcome.next.inj (h.symm.trans (step_of_inert hrun hfetch hlookup hpolicy)))
    | refuse => cases h.symm.trans (step_of_refuse hrun hfetch hlookup hpolicy)

/-- A Step entered halted changes nothing, so one that changes something was entered running. -/
theorem running_of_step_ne {α : Type} {s t : State} (g : State → α) (h : step s = .next t) (hne : g t ≠ g s) :
    s.halted = false := by
  refine Bool.eq_false_iff.mpr fun hhalted => hne ?_
  rw [Host.Outcome.next.inj (h.symm.trans (haltedStepDoesNothing s hhalted))]

/-- The column `reg_write` holds only where the column `dest` names a register (`40_datapath.md` R123). -/
theorem destOf_of_regWrite {op : Op} {de : DELatch} {w : Word} (hwrite : (controlRow op de w).regWrite = true) :
    destOf op de = some (controlRow op de w).dest := by
  obtain ⟨hsome, -⟩ : (destOf op de).isSome = true ∧ _ := Bool.and_eq_true_iff.mp hwrite
  obtain ⟨r, hdest⟩ := Option.isSome_iff_exists.mp hsome
  have hr : (controlRow op de w).dest = r := congrArg (·.getD 0#5) hdest
  rw [hdest, hr]

/-- Which register a word can write, by its opcode and funct (`30_encoding.md` R90, R95, R96). -/
theorem destination_of_lookup {s : State} {op : Op} {w npc : Word} {r : RegNum}
    (hlookup : lookup (opcodeOf w) (functOf w) = some op) (hdest : destOf op (deOf s w npc) = some r) :
    (opcodeOf w = 0#6 ∧ (functOf w).toNat ∈ [0, 2, 32, 33, 34, 35, 36, 37, 38, 39, 42, 43] ∧ r = rdOf w) ∨
      (8 ≤ (opcodeOf w).toNat ∧ (opcodeOf w).toNat ≤ 15 ∧ r = rtOf w) ∨
      (opcodeOf w = 35#6 ∧ r = rtOf w) ∨ (opcodeOf w = 3#6 ∧ r = 31#5) := by
  obtain ⟨hopcode, hfunct⟩ := bits_of_lookup hlookup
  cases op with
  | add | addu | sub | subu | and | or | xor | nor | slt | sltu | sll | srl =>
    exact .inl ⟨hopcode, by rw [hfunct hopcode]; decide, (Option.some.inj hdest).symm⟩
  | addi | addiu | slti | sltiu | andi | ori | xori | lui =>
    exact .inr (.inl ⟨by rw [hopcode]; decide, by rw [hopcode]; decide, (Option.some.inj hdest).symm⟩)
  | lw => exact .inr (.inr (.inl ⟨hopcode, (Option.some.inj hdest).symm⟩))
  | jal => exact .inr (.inr (.inr ⟨hopcode, (Option.some.inj hdest).symm⟩))
  | jr | syscall | j | beq | bne | sw => cases hdest

/-- Settles O46: WriteBack changes the row's destination alone, and the latch of defaults writes nothing. -/
theorem onlyTheDestinationRegisterChanges : Obligations.OnlyTheDestinationRegisterChanges := by
  intro s t w r hfetch h hne
  have hrun := running_of_step_ne (·.reg r) h hne
  obtain ⟨op, hlookup, rfl⟩ | rfl := step_next_row hrun hfetch h
  · rw [retire_reg] at hne
    split at hne
    case isTrue hwrites =>
      obtain ⟨hwrite, hdest, hzero⟩ := hwrites
      rw [← hdest] at hzero
      have hdestOf := destOf_of_regWrite hwrite
      rw [← hdest] at hdestOf
      exact ⟨hzero, destination_of_lookup hlookup hdestOf⟩
    case isFalse => exact absurd rfl hne
  · exact absurd (sameRegs_retire (s.issue w) rfl r) hne

/-- Settles O47: only sw's row has a store, at the address and with the word that Decode read. -/
theorem onlySwChangesTheDataMemory : Obligations.OnlySwChangesTheDataMemory := by
  intro s t w a hfetch h hne
  have hrun := running_of_step_ne (·.dmem a) h hne
  obtain ⟨op, hlookup, rfl⟩ | rfl := step_next_row hrun hfetch h
  · rw [retire_dmem] at hne ⊢
    split at hne
    case isTrue hstores =>
      obtain ⟨hstore, haddr⟩ := hstores
      obtain rfl : op = .sw := beq_iff_eq.mp hstore
      obtain ⟨hopcode, -⟩ := bits_of_lookup hlookup
      exact ⟨hopcode, haddr, if_pos ⟨rfl, haddr⟩⟩
    case isFalse => exact absurd rfl hne
  · exact absurd (sameMem_retire (s.issue w) rfl a) hne

/-! ### The fetch outside the image -/

/-- Below the image and past its end the port delivers the zero word (`20_memory.md` R52). -/
theorem fetch_of_outside {s : State} (hok : s.cfg.misalignedFetch = .truncate ∨ s.pc.toNat % 4 = 0)
    (hout : s.pc.toNat < s.cfg.imemBase.toNat ∨ s.cfg.imemBase.toNat + 4 * s.prog.length ≤ s.pc.toNat) :
    fetch s = .ok 0#32 := by
  rcases hout with hbelow | hpast
  · exact imem_of_below s.prog hok hbelow
  · rw [fetch, imem_of_above s.prog hok (by omega), List.getD_eq_default _ _ (by omega)]

/-- Settles O38: the zero word is a sll whose row writes no register, stores nothing and transfers nowhere. -/
theorem outOfRangeFetchIsANop : Obligations.OutOfRangeFetchIsANop := by
  intro s hrun hok hout
  have hstep := step_of_lookup (op := .sll) hrun (fetch_of_outside hok hout) rfl
  exact ⟨_, hstep, retire_pc_of_sequential _ rfl rfl, sameRegs_retire ((s.issue 0#32).haltIf false) rfl,
    sameMem_retire ((s.issue 0#32).haltIf false) rfl, by simp [hrun], retire_cfg _ _, retire_prog _ _⟩

end Sys2Proof.Machine
end

section
/-! PROOFS. What instructions do in a state of their own: the transfer targets as numbers and the alignment of the pc
(`30_encoding.md` R86, R87; `20_memory.md` R53), the ignored fields (R88), the image as no data (`20_memory.md` R50),
and the effects that two instructions have together (R65; `42_control_transfer.md` R188). -/

namespace Sys2Proof.Machine

/-! ### Transfer targets -/

/-- Two bits to the left of the sign-extended immediate is four times the signed number (`30_encoding.md` R86). -/
theorem sext32_shiftLeft_two (imm : BitVec 16) : sext32 imm <<< 2 = BitVec.ofInt 32 (4 * imm.toInt) := by
  have hmul : sext32 imm <<< 2 = 4#32 * sext32 imm := by rw [BitVec.shiftLeft_eq_mul_twoPow, BitVec.mul_comm]; rfl
  rw [hmul, BitVec.ofInt_mul]
  rfl

/-- The branch offset is a multiple of 4, so the sum keeps `npc`'s value modulo 4. -/
theorem branchTarget_mod_four (npc immSext : Word) : (branchTarget npc immSext).toNat % 4 = npc.toNat % 4 := by
  rw [branchTarget, BitVec.toNat_add, BitVec.toNat_shiftLeft, Nat.shiftLeft_eq]
  omega

/-- Masking the top four bits rounds down to a multiple of `2^28`. -/
theorem and_topMask_toNat (npc : Word) : (npc &&& 0xF0000000#32).toNat = npc.toNat / 2 ^ 28 * 2 ^ 28 := by
  have hshift : npc &&& 0xF0000000#32 = npc >>> 28 <<< 28 := by
    rw [BitVec.shiftLeft_ushiftRight]
    rfl
  have hnpc := npc.isLt
  rw [hshift, BitVec.toNat_shiftLeft, BitVec.toNat_ushiftRight, Nat.shiftLeft_eq, Nat.shiftRight_eq_div_pow]
  omega

/-- The jump target as a number (`30_encoding.md` R87): its two parts share no bit, so their union is their sum. -/
theorem jumpTarget_toNat (npc : Word) (field : BitVec 26) :
    (jumpTarget npc field).toNat = npc.toNat / 2 ^ 28 * 2 ^ 28 + field.toNat * 4 := by
  have hfield : (field.setWidth 32 <<< 2).toNat = field.toNat * 4 := by
    rw [BitVec.toNat_shiftLeft, BitVec.toNat_setWidth_of_le (by decide), Nat.shiftLeft_eq]
    omega
  rw [jumpTarget, BitVec.toNat_or, and_topMask_toNat, hfield, Nat.mul_comm _ (2 ^ 28)]
  exact (Nat.two_pow_add_eq_or_of_lt (by omega) _).symm

/-- Settles O3: the branch's offset as a signed number, the jump's target as a sum of disjoint parts. -/
theorem transferTargetsAsNumbers : Obligations.TransferTargetsAsNumbers :=
  ⟨fun npc imm => ⟨congrArg (npc + ·) (sext32_shiftLeft_two imm), branchTarget_mod_four npc _⟩, jumpTarget_toNat⟩

/-! ### The alignment of the pc -/

/-- The resolver's target is aligned if the next pc is, and for jr if the register's value is (`40_datapath.md` R124;
a row without a transfer has target 0). -/
theorem resolve_target_aligned {op : Op} {rsVal rtVal npc immSext : Word} {jaddr : BitVec 26}
    (hnpc : npc.toNat % 4 = 0) (hjr : op = .jr → rsVal.toNat % 4 = 0) :
    (resolve op rsVal rtVal npc immSext jaddr).target.toNat % 4 = 0 := by
  cases op with
  | jr => exact hjr rfl
  | j | jal =>
    rw [resolve, jumpTarget_toNat]
    omega
  | beq | bne => exact (branchTarget_mod_four npc immSext).trans hnpc
  | add | addu | sub | subu | and | or | xor | nor | slt | sltu | sll | srl | syscall | addi | addiu | slti | sltiu
  | andi | ori | xori | lui | lw | sw => rfl

theorem pcNext_aligned {em : EMLatch} {seq : Word} (htarget : em.target.toNat % 4 = 0) (hseq : seq.toNat % 4 = 0) :
    (pcNext em seq).toNat % 4 = 0 := by
  unfold pcNext
  split
  · exact htarget
  · exact hseq

/-- The word of a jr holds its register's number. -/
theorem rsOf_encode_jr (rs rt rd : RegNum) (shamt : BitVec 5) : rsOf (encode (.jr rs rt rd shamt)) = rs := by
  obtain ⟨-, hrs, -⟩ := encodeR_fields rs rt rd shamt 8#6
  exact hrs

/-- Only a jr has the row of jr. -/
theorem eq_jr_of_op {i : Instr} (hop : i.op = .jr) : ∃ rs rt rd shamt, i = .jr rs rt rd shamt := by
  cases i with
  | jr rs rt rd shamt => exact ⟨rs, rt, rd, shamt, rfl⟩
  | _ => cases hop

/-- Settles O45: both inputs of the program-counter multiplexer are aligned. -/
theorem onlyJrCanMisalignThePc : Obligations.OnlyJrCanMisalignThePc := by
  intro i s hpc hjr
  have hnpc : s.npc.toNat % 4 = 0 := by
    rw [State.npc, BitVec.toNat_add, BitVec.toNat_ofNat]
    omega
  refine ⟨_, exec_eq i s, ?_⟩
  rw [retire_pc]
  refine pcNext_aligned (resolve_target_aligned hnpc fun hop => ?_) hnpc
  obtain ⟨rs, rt, rd, shamt, rfl⟩ := eq_jr_of_op hop
  rw [deOf, rsOf_encode_jr]
  exact hjr rs rt rd shamt rfl

/-! ### The image is no data -/

/-- The image takes no part in what an `EM` does. -/
theorem retire_withProg (s : State) (em : EMLatch) (p : List Word) :
    State.retire { s with prog := p } em = { s.retire em with prog := p } := by
  unfold State.retire State.writeBack State.setReg
  split
  · split <;> rfl
  · rfl

/-- Settles O44: Execute forms `EM` from the registers and the pc, and retires it without the image. -/
theorem noInstructionReadsTheImage : Obligations.NoInstructionReadsTheImage := by
  intro i s p
  refine ⟨_, exec_eq i s, ?_⟩
  rw [exec_eq, ← retire_withProg]
  rfl

/-! ### The ignored fields -/

/-- The lookup answers alike for words of equal opcode, and equal funct where the opcode is 0 (`30_encoding.md` R88). -/
theorem lookup_congr {opcode opcode' funct funct' : BitVec 6} (hopcode : opcode = opcode')
    (hfunct : opcode = 0#6 → funct = funct') : lookup opcode funct = lookup opcode' funct' := by
  subst hopcode
  by_cases h0 : opcode = 0#6
  · rw [hfunct h0]
  · exact lookup_of_opcode_ne funct funct' h0

theorem assembled_iff_cleared (i : Instr) : i.assembled = true ↔ i.cleared = i := by
  cases i <;> simp [Instr.assembled, Instr.cleared, @eq_comm _ 0#5, @eq_comm _ 0#20, and_assoc]

theorem cleared_op (i : Instr) : i.cleared.op = i.op := by cases i <;> rfl

/-- With register 0 as destination WriteBack does nothing, whatever the write signal says (`10_state.md` R22). -/
theorem retire_eq_of_dest_zero (s : State) {em : EMLatch} (hdest : em.dest = 0#5) :
    s.retire em = s.memoryStage em s.npc := by
  simp [State.retire, State.writeBack, mwOf, hdest]

/-- The zero word's gate shows in the latches alone: clearing sll's ignored `rs` changes nothing else. -/
theorem sameButLatches_sll (rs rt rd : RegNum) (shamt : BitVec 5) (s : State) :
    SameButLatches (s.retire (sllLatch rs rt rd shamt s)) (s.retire (sllLatch 0#5 rt rd shamt s)) := by
  by_cases hrd : rd = 0#5
  · rw [retire_eq_of_dest_zero s hrd, retire_eq_of_dest_zero s hrd]
    exact ⟨rfl, rfl, rfl, rfl, rfl, rfl, rfl⟩
  · have hgate (rs : RegNum) : (encode (.sll rs rt rd shamt) != 0#32) = true := by
      refine bne_iff_ne.mpr fun hzero => ?_
      obtain ⟨-, -, hrd0, -⟩ := encode_sll_eq_zero_iff.mp hzero
      exact hrd hrd0
    rw [sllLatch, sllLatch, hgate rs, hgate 0#5]
    exact ⟨rfl, rfl, rfl, rfl, rfl, rfl, rfl⟩

/-- No meaning but sll's looks at a field its instruction ignores (`30_encoding.md` R91). -/
theorem exec_cleared {i : Instr} (hop : i.op ≠ .sll) (s : State) : exec i.cleared s = exec i s := by
  cases i with
  | sll => exact absurd rfl hop
  | _ => rfl

/-- Settles O8: the dispatch, the assembler's form, and the effect, sll's on its own. -/
theorem ignoredFieldsDoNotMatter : Obligations.IgnoredFieldsDoNotMatter := by
  refine ⟨fun w w' hopcode hfunct i hdecode => ?dispatch, assembled_iff_cleared, fun i s => ⟨cleared_op i, ?effect⟩⟩
  case dispatch =>
    rw [exists_decode_op_iff, ← lookup_congr hopcode hfunct]
    exact exists_decode_op_iff.mp ⟨i, hdecode, rfl⟩
  case effect =>
    by_cases hop : i.op = .sll
    · cases i with
      | sll rs rt rd shamt =>
        exact ⟨_, _, exec_sll rs rt rd shamt s, exec_sll 0#5 rt rd shamt s, sameButLatches_sll rs rt rd shamt s⟩
      | _ => cases hop
    · refine ⟨_, _, exec_eq i s, (exec_cleared hop s).trans (exec_eq i s), ?_⟩
      exact ⟨rfl, rfl, rfl, rfl, rfl, rfl, rfl⟩

/-! ### Single instructions and pairs -/

/-- Settles O19: sltiu's row passes the sign-extended immediate to the unsigned comparison. -/
theorem sltiuComparesAsUnsigned : Obligations.SltiuComparesAsUnsigned := by
  refine ⟨selectedBy_of_mem (row := ⟨.sltiu, maskOpcode, 0x2C000000#32⟩) (by decide), fun rs rt imm => ?_⟩
  exact setsReg_of_aluToReg .sltu (·.reg rs) (fun _ => sext32 imm) (fun _ => rfl) fun _ => alu_sltu _ _

theorem exec_syscall (code : BitVec 20) (s : State) :
    exec (.syscall code) s = .next ((s.haltIf (haltTest s)).retire EMLatch.idle) := rfl

/-- Settles O28: syscall's row; the flag by the test on register 2, everything else by the latch of defaults. -/
theorem syscallHaltsOnTen : Obligations.SyscallHaltsOnTen := by
  refine ⟨selectedBy_of_mem (row := ⟨.syscall, maskFunct, 0x0000000C#32⟩) (by decide), fun code s => ?_⟩
  have hhalts : (s.halted || haltTest s) = true ↔ s.halted = true ∨ s.reg 2#5 = 10#32 := by
    rw [Bool.or_eq_true]
    exact or_congr_right beq_iff_eq
  refine ⟨_, exec_syscall code s, ?_, sameRegs_retire (s.haltIf _) rfl, retire_pc_of_sequential (s.haltIf _) rfl rfl,
    sameMem_retire (s.haltIf _) rfl, sameRest_retire (s.haltIf _) _⟩
  rw [retire_halted, haltIf_halted, hhalts]

/-- Settles O48: sw leaves lw's base register alone, and lw reads the one cell that sw wrote or another. -/
theorem loadAfterStoreReadsTheStoredWord : Obligations.LoadAfterStoreReadsTheStoredWord := by
  intro s rs rt rs' rt' imm imm' hrt'
  obtain ⟨-, hsw⟩ := swStoresTheCell
  obtain ⟨-, hlw⟩ := lwLoadsTheCell
  obtain ⟨haddr, t, hstore, hcell, hregs, -⟩ := hsw rs rt imm s
  obtain ⟨u, hload, hreg, -⟩ := hlw rs' rt' imm' t
  have hloaded : u.reg rt' = t.dmem (t.reg rs' + sext32 imm') := (hreg rt').trans (if_pos ⟨rfl, hrt'⟩)
  exact ⟨t, u, hstore, hload, by rw [hloaded, hregs rs', hcell, haddr]⟩

/-- Settles O49: jal's link is `pc + 4`, and jr goes to whatever register 31 holds. -/
theorem callThenReturnGoesBack : Obligations.CallThenReturnGoesBack := by
  intro s target rt rd shamt
  obtain ⟨-, hjal⟩ := jalLinksAndGoes
  obtain ⟨-, hjr⟩ := jrGoesToTheRegister
  obtain ⟨t, hcall, hlink, -⟩ := hjal target s
  refine ⟨t, hcall, fun u hu => ?_⟩
  obtain ⟨v, hreturn, -, hpc, -⟩ := hjr 31#5 rt rd shamt u
  have hlinked : t.reg 31#5 = s.pc + 4#32 := (hlink 31#5).trans (if_pos ⟨rfl, by decide⟩)
  exact ⟨v, hreturn, hpc.trans (hu.trans hlinked)⟩

end Sys2Proof.Machine
end

section
/-! PROOFS. Runs (`40_datapath.md` R138 to R140, `70_reset_and_hazards.md` R301): by induction on the fuel, from the
one equation of `run` for each thing that a Step can do. -/

namespace Sys2Proof.Machine

/-! ### What one unit of fuel does -/

theorem run_of_halted {s : State} (hhalted : s.halted = true) (fuel : Nat) : run fuel s = .halted s.cycles s := by
  cases fuel <;> simp [run, hhalted]

theorem run_zero_of_running {s : State} (hrun : s.halted = false) : run 0 s = .outOfFuel s := by
  simp [run, hrun]

theorem run_succ_of_next {s t : State} (hrun : s.halted = false) (hstep : step s = .next t) (fuel : Nat) :
    run (fuel + 1) s = run fuel t := by
  simp [run, hrun, hstep]

/-- A Step entered running counts one cycle. -/
theorem cycles_of_step {s t : State} (hrun : s.halted = false) (hstep : step s = .next t) :
    t.cycles = s.cycles + 1 := by
  simpa [hrun] using eachRunningStepCountsOneCycle s t hstep

/-- A Step answers a state or a fault, for it never refuses. -/
theorem step_next_or_fault (s : State) : (∃ t, step s = .next t) ∨ ∃ f, step s = .fault f := by
  cases hstep : step s with
  | next t => exact .inl ⟨t, rfl⟩
  | fault f => exact .inr ⟨f, rfl⟩
  | refused r => exact absurd hstep (step_ne_refused s r)

/-- Settles O50: the equations of `run`, and the halting Step's count. -/
theorem runEndsInTheHaltingStep : Obligations.RunEndsInTheHaltingStep := by
  refine ⟨fun fuel s hhalted => run_of_halted hhalted fuel, fun fuel s t hrun hstep => run_succ_of_next hrun hstep fuel,
    fun fuel s t hrun hstep hhalted => ?_, fun fuel s f hstep => run_of_fault fuel hstep⟩
  rw [run_succ_of_next hrun hstep, run_of_halted hhalted, cycles_of_step hrun hstep]

/-! ### Inductions on the fuel -/

/-- Settles O51: the longer run takes the same Steps until the run ends. -/
theorem moreFuelChangesNoFinishedRun : Obligations.MoreFuelChangesNoFinishedRun := by
  intro fuel more s
  induction fuel generalizing s with
  | zero =>
    cases hrun : s.halted with
    | true => simp [run_of_halted hrun]
    | false => simp [run_zero_of_running hrun]
  | succ fuel ih =>
    rw [Nat.add_right_comm]
    cases hrun : s.halted with
    | true => simp [run_of_halted hrun]
    | false =>
      obtain ⟨t, hstep⟩ | ⟨f, hstep⟩ := step_next_or_fault s
      · rw [run_succ_of_next hrun hstep, run_succ_of_next hrun hstep]
        exact ih t
      · simp [run_of_fault _ hstep]

/-- It takes `k` Steps, each counted, from `s` to the halted state `t` with count `c`, and after fewer the run is
still going. -/
def HaltsAfter (k : Nat) (s t : State) (c : Nat) : Prop :=
  t.halted = true ∧ c = t.cycles ∧ c = s.cycles + k ∧ run k s = .halted c t ∧ ∀ n < k, ∃ u, run n s = .outOfFuel u

theorem haltsAfter_zero {s : State} (hhalted : s.halted = true) : HaltsAfter 0 s s s.cycles :=
  ⟨hhalted, rfl, rfl, run_of_halted hhalted 0, fun n hn => absurd hn n.not_lt_zero⟩

theorem haltsAfter_succ {k : Nat} {s s' t : State} {c : Nat} (hrun : s.halted = false) (hstep : step s = .next s')
    (h : HaltsAfter k s' t c) : HaltsAfter (k + 1) s t c := by
  obtain ⟨hhalted, hc, hck, hend, hgoing⟩ := h
  have hcount : s'.cycles = s.cycles + 1 := cycles_of_step hrun hstep
  refine ⟨hhalted, hc, by omega, (run_succ_of_next hrun hstep k).trans hend, fun n hn => ?_⟩
  cases n with
  | zero => exact ⟨s, run_zero_of_running hrun⟩
  | succ n =>
    rw [run_succ_of_next hrun hstep]
    exact hgoing n (by omega)

/-- A run that halts does so after some number of Steps within its fuel. -/
theorem haltsAfter_of_run {fuel : Nat} {s t : State} {c : Nat} (h : run fuel s = .halted c t) :
    ∃ k ≤ fuel, HaltsAfter k s t c := by
  induction fuel generalizing s with
  | zero =>
    cases hrun : s.halted with
    | true =>
      cases (run_of_halted hrun 0).symm.trans h
      exact ⟨0, le_rfl, haltsAfter_zero hrun⟩
    | false => cases (run_zero_of_running hrun).symm.trans h
  | succ fuel ih =>
    cases hrun : s.halted with
    | true =>
      cases (run_of_halted hrun (fuel + 1)).symm.trans h
      exact ⟨0, Nat.zero_le _, haltsAfter_zero hrun⟩
    | false =>
      obtain ⟨s', hstep⟩ | ⟨f, hstep⟩ := step_next_or_fault s
      · obtain ⟨k, hk, hhalts⟩ := ih ((run_succ_of_next hrun hstep fuel).symm.trans h)
        exact ⟨k + 1, Nat.succ_le_succ hk, haltsAfter_succ hrun hstep hhalts⟩
      · cases (run_of_fault fuel hstep).symm.trans h

/-- Settles O52: the number of Steps is the difference of the two counts. -/
theorem runCountsItsSteps : Obligations.RunCountsItsSteps := by
  intro fuel s t c h
  obtain ⟨k, hk, hhalted, hc, hck, hend, hgoing⟩ := haltsAfter_of_run h
  obtain rfl : k = c - s.cycles := by omega
  exact ⟨hhalted, hc, by omega, hk, hend, hgoing⟩

/-- Under `truncate` no fetch faults, and under `inert` no word does (`60_exceptions.md` R273). -/
theorem step_ne_fault_of_faultFree {s : State} (hfree : faultFree s.cfg = true) (f : Fault) : step s ≠ .fault f := by
  intro hstep
  obtain ⟨htruncate, hinert⟩ : s.cfg.misalignedFetch = .truncate ∧ s.cfg.illegalPolicy = .inert := by
    simpa [faultFree] using hfree
  obtain ⟨-, hfetch | ⟨w, -, -, hrefuse, -⟩⟩ := step_fault_iff.mp hstep
  · obtain ⟨hfault, -⟩ := fetch_error_iff.mp hfetch
    simp [htruncate] at hfault
  · simp [hinert] at hrefuse

/-- Settles O53: every Step keeps the configuration, under which no Step faults. -/
theorem truncatingInertMachineNeverFaults : Obligations.TruncatingInertMachineNeverFaults := by
  intro s hfree fuel f
  induction fuel generalizing s with
  | zero => cases hrun : s.halted <;> simp [run, hrun]
  | succ fuel ih =>
    cases hrun : s.halted with
    | true => simp [run_of_halted hrun]
    | false =>
      obtain ⟨t, hstep⟩ | ⟨f', hstep⟩ := step_next_or_fault s
      · rw [run_succ_of_next hrun hstep]
        exact ih t (by rwa [step_keeps_cfg hstep])
      · exact absurd hstep (step_ne_fault_of_faultFree hfree f')

end Sys2Proof.Machine
end

section
/-! PROOFS. The canonical data memory (`10_state.md` R25): what it lists is what it holds, so that equal contents are
equal lists and the snapshot (`40_datapath.md` R141) shows exactly the non-zero cells. -/

namespace Sys2Proof.Machine

theorem Memory.lookup_cons_self (k : Nat) (v : Word) (rest : Memory) : Memory.lookup ((k, v) :: rest) k = v :=
  if_pos rfl

theorem Memory.lookup_cons_of_ne {k k' : Nat} (hk : k ≠ k') (v : Word) (rest : Memory) :
    Memory.lookup ((k, v) :: rest) k' = Memory.lookup rest k' :=
  if_neg hk

/-- A canonical memory lists exactly the cells that do not read as unlisted. -/
theorem Memory.mem_iff_lookup {lo : Nat} {m : Memory} (hwf : Memory.wfFrom lo m = true) {k : Nat} {v : Word} :
    (k, v) ∈ m ↔ Memory.lookup m k = v ∧ v ≠ Memory.unlisted := by
  induction m generalizing lo with
  | nil => simp [Memory.lookup, eq_comm]
  | cons e rest ih =>
    obtain ⟨k', v'⟩ := e
    obtain ⟨-, -, hv', hrest⟩ := Memory.wfFrom_cons.mp hwf
    rw [List.mem_cons, ih hrest]
    by_cases hk : k' = k
    · have hlater : Memory.lookup rest k = Memory.unlisted := Memory.lookup_of_wfFrom hrest (by omega)
      subst hk
      rw [hlater, Memory.lookup_cons_self]
      constructor
      · rintro (hhead | ⟨rfl, hv⟩)
        · cases hhead
          exact ⟨rfl, hv'⟩
        · exact absurd rfl hv
      · rintro ⟨rfl, -⟩
        exact .inl rfl
    · have hne : (k, v) ≠ (k', v') := fun h => hk (congrArg Prod.fst h).symm
      rw [Memory.lookup_cons_of_ne hk, or_iff_right hne]

/-- Settles O54: the listed cells by the canonical form, the registers and the window by position. -/
theorem snapshotShowsTheState : Obligations.SnapshotShowsTheState := by
  intro s hinv
  obtain ⟨-, -, hmem, -⟩ := inv_iff.mp hinv
  refine ⟨fun a v => Memory.mem_iff_lookup hmem, fun r => ?regs, fun k hk => ?window⟩
  case regs => simp [snapshot, r.isLt]
  case window => simp [dataWindow, hk]

/-- No cell below the first key of a canonical list holds anything. -/
theorem Memory.key_le_of_lookup_ne {lo k k' : Nat} {v : Word} {rest : Memory}
    (hwf : Memory.wfFrom lo ((k, v) :: rest) = true)
    (hne : Memory.lookup ((k, v) :: rest) k' ≠ Memory.unlisted) : k ≤ k' := by
  obtain ⟨-, hrest⟩ := Memory.wfFrom_cons.mp hwf
  by_contra hlt
  exact hne (Memory.lookup_of_wfFrom (Memory.wfFrom_cons.mpr ⟨le_rfl, hrest⟩) (Nat.not_le.mp hlt))

/-- Canonical lists with equal contents are equal: their first keys are the least cells that hold something. -/
theorem Memory.eq_of_lookup_eq {lo lo' : Nat} {m m' : Memory} (hwf : Memory.wfFrom lo m = true)
    (hwf' : Memory.wfFrom lo' m' = true) (heq : ∀ k < 2 ^ 32, Memory.lookup m k = Memory.lookup m' k) : m = m' := by
  induction m generalizing lo lo' m' with
  | nil =>
    cases m' with
    | nil => rfl
    | cons e rest' =>
      obtain ⟨k, v⟩ := e
      obtain ⟨-, hk, hv, -⟩ := Memory.wfFrom_cons.mp hwf'
      exact absurd ((Memory.lookup_cons_self k v rest').symm.trans (heq k hk).symm) hv
  | cons e rest ih =>
    obtain ⟨k, v⟩ := e
    obtain ⟨-, hk, hv, hrest⟩ := Memory.wfFrom_cons.mp hwf
    have hself := Memory.lookup_cons_self k v rest
    cases m' with
    | nil => exact absurd (hself.symm.trans (heq k hk)) hv
    | cons e' rest' =>
      obtain ⟨k', v'⟩ := e'
      obtain ⟨-, hk', hv', hrest'⟩ := Memory.wfFrom_cons.mp hwf'
      have hself' := Memory.lookup_cons_self k' v' rest'
      have hle : k' ≤ k := Memory.key_le_of_lookup_ne hwf' (by rwa [← heq k hk, hself])
      have hle' : k ≤ k' := Memory.key_le_of_lookup_ne hwf (by rwa [heq k' hk', hself'])
      obtain rfl : k = k' := Nat.le_antisymm hle' hle
      obtain rfl : v = v' := hself.symm.trans ((heq k hk).trans hself')
      rw [ih hrest hrest' fun j hj => ?_]
      by_cases hjk : k = j
      · rw [Memory.lookup_of_wfFrom hrest (by omega), Memory.lookup_of_wfFrom hrest' (by omega)]
      · rw [← Memory.lookup_cons_of_ne hjk v rest, ← Memory.lookup_cons_of_ne hjk v rest', heq j hj]

/-- Settles O55: every key is the number of a 32-bit address. -/
theorem canonicalMemoriesAreEqualByContents : Obligations.CanonicalMemoriesAreEqualByContents := by
  intro m m' hwf hwf' hread
  refine Memory.eq_of_lookup_eq hwf hwf' fun k hk => ?_
  have haddr : (BitVec.ofNat 32 k).toNat = k := by rw [BitVec.toNat_ofNat, Nat.mod_eq_of_lt hk]
  have hk' := hread (BitVec.ofNat 32 k)
  rwa [Memory.read, Memory.read, haddr] at hk'

end Sys2Proof.Machine
end
